-- ==== Sys2Proof/Word.lean ====
section
/-! DEFINITION. The words of the block (spec/00_scope.md R6, R7): a byte, a 32-bit word, a 64-bit number. -/

namespace Sys2Proof

/-- A byte (R6): an element of a byte string, of `MEM`, of `BUF` and of `KBLK`. -/
abbrev Byte := BitVec 8

/-- A 32-bit word (R5): a port word, an operand register, a SHA-1 word. -/
abbrev Word := BitVec 32

/-- A 64-bit number (R37, R39, R44): `NOW`, `CNT`, `MLEN`. -/
abbrev DWord := BitVec 64

end Sys2Proof
end

