-- ==== Sys2Proof/Syntax.lean ====
section
/-! DEFINITION. The instructions of the block: its 18 commands (spec/30_encoding.md R120, R121; spec/opcode_table.json). -/

namespace Sys2Proof

/-- A command. There is one format and no operand field in the word (R120, R122): every operand is the content of a named
register at the accept step. -/
inductive Instr where
  | nop         -- NOP          0x00  R276
  | sysZero     -- SYS.ZERO     0x01  R277
  | sha1Init    -- SHA1.INIT    0x10  R149
  | sha1Update  -- SHA1.UPDATE  0x11  R150
  | sha1Final   -- SHA1.FINAL   0x12  R151
  | sha1Block   -- SHA1.BLOCK   0x13  R152
  | sha1Hash    -- SHA1.HASH    0x14  R153
  | hmacMac     -- HMAC.MAC     0x20  R183
  | hmacInit    -- HMAC.INIT    0x21  R184
  | hmacFinal   -- HMAC.FINAL   0x22  R185
  | b32Enc      -- B32.ENC      0x30  R206
  | b32Dec      -- B32.DEC      0x31  R207
  | totpCtr     -- TOTP.CTR     0x40  R235
  | totpSer     -- TOTP.SER     0x41  R236
  | totpTrunc   -- TOTP.TRUNC   0x42  R237
  | totpMod     -- TOTP.MOD     0x43  R238
  | totpDig     -- TOTP.DIG     0x44  R239
  | totpCmp     -- TOTP.CMP     0x45  R240
deriving DecidableEq, Repr

end Sys2Proof
end

