-- ==== Sys2Proof/WellFormed.lean ====
section
/-! DEFINITION. Which command words are legal (spec/30_encoding.md R123), said without the decoder: the `ZERO` field is 0
and the opcode is one of the 18. A command has no operand field (R122), so every `Instr` is well-formed. -/

namespace Sys2Proof

/-- The 18 defined values of `OPC` (R121), unit by unit. -/
def definedOpcodes : List Nat :=
  [0x00, 0x01] ++ [0x10, 0x11, 0x12, 0x13, 0x14] ++ [0x20, 0x21, 0x22] ++ [0x30, 0x31] ++
    [0x40, 0x41, 0x42, 0x43, 0x44, 0x45]

/-- First check of R123: `cw[31:8] = 0`. -/
def zeroFieldOk (cw : Word) : Bool := cw.toNat / 256 == 0

/-- Second check of R123: `cw[7:0]` is a defined opcode. -/
def opcodeOk (cw : Word) : Bool := definedOpcodes.contains (cw.toNat % 256)

/-- A legal command word (R123). Every other one of the 2^32 words is illegal. -/
def legalWord (cw : Word) : Bool := zeroFieldOk cw && opcodeOk cw

/-- Well-formedness of a command as syntax: it carries no operand, so there is nothing to check (R122). -/
def Instr.wellFormed (_ : Instr) : Bool := true

end Sys2Proof
end

