-- ==== Sys2Proof/Decode.lean ====
section
/-! DEFINITION. Decoding a command word (spec/30_encoding.md R120, R121, R124), total, with a name for each rejection, and
the encoder from the same table. -/

namespace Sys2Proof

/-- Why a word is illegal (R123). Both become `E_ILLCMD` in the machine (R293). -/
inductive Reject where
  | zeroFieldSet      -- cw[31:8] is not 0
  | opcodeUndefined   -- cw[31:8] is 0 and cw[7:0] is not one of the 18 opcodes
deriving DecidableEq, Repr

/-- Field `OPC`, bits 7:0 (R120). -/
def opcField (cw : Word) : BitVec 8 := cw.extractLsb' 0 8

/-- Field `ZERO`, bits 31:8 (R120). -/
def zeroField (cw : Word) : BitVec 24 := cw.extractLsb' 8 24

/-- `Decode(cw)` of R124. -/
def decode (cw : Word) : Except Reject Instr :=
  if zeroField cw ≠ 0 then .error .zeroFieldSet
  else
    match (opcField cw).toNat with
    | 0x00 => .ok .nop
    | 0x01 => .ok .sysZero
    | 0x10 => .ok .sha1Init
    | 0x11 => .ok .sha1Update
    | 0x12 => .ok .sha1Final
    | 0x13 => .ok .sha1Block
    | 0x14 => .ok .sha1Hash
    | 0x20 => .ok .hmacMac
    | 0x21 => .ok .hmacInit
    | 0x22 => .ok .hmacFinal
    | 0x30 => .ok .b32Enc
    | 0x31 => .ok .b32Dec
    | 0x40 => .ok .totpCtr
    | 0x41 => .ok .totpSer
    | 0x42 => .ok .totpTrunc
    | 0x43 => .ok .totpMod
    | 0x44 => .ok .totpDig
    | 0x45 => .ok .totpCmp
    | _ => .error .opcodeUndefined

/-- The opcode of a command (R121). -/
def opcode : Instr → BitVec 8
  | .nop => 0x00
  | .sysZero => 0x01
  | .sha1Init => 0x10
  | .sha1Update => 0x11
  | .sha1Final => 0x12
  | .sha1Block => 0x13
  | .sha1Hash => 0x14
  | .hmacMac => 0x20
  | .hmacInit => 0x21
  | .hmacFinal => 0x22
  | .b32Enc => 0x30
  | .b32Dec => 0x31
  | .totpCtr => 0x40
  | .totpSer => 0x41
  | .totpTrunc => 0x42
  | .totpMod => 0x43
  | .totpDig => 0x44
  | .totpCmp => 0x45

/-- The command word: `ZERO` = 0 over `OPC` (R120, R121). -/
def encode (i : Instr) : Word := (0 : BitVec 24) ++ opcode i

/-- The command word whose bits, numbered as spec/opcode_table.json numbers them, are `w`: the table gives every row 32
bits and the word is the number itself (a port word has no byte order, R79). -/
def tableWord (nbits w : Nat) : Nat := w % 2 ^ nbits

/-- What the decoder reads from an instruction whose table bits are `w`; a number that does not fit one 32-bit command
word is no instruction (R120). -/
def decodeTableWord (nbits w : Nat) : Option Instr :=
  if tableWord nbits w < 2 ^ 32 then (decode (BitVec.ofNat 32 (tableWord nbits w))).toOption else none

end Sys2Proof
end

