-- ==== Sys2Proof/Machine/Bytes.lean ====
section
/-! DEFINITION. Byte strings, bit strings and their big-endian readings (spec/00_scope.md R6, R7; spec/30_encoding.md R100,
R111). A byte string is a list, first byte first. -/

namespace Sys2Proof.Machine

/-- `rotl(x, n)` for `0 < n < 32` (R6). -/
def rotl (x : Word) (n : Nat) : Word := (x <<< n) ||| (x >>> (32 - n))

/-- `be32(v)`: most significant byte first (R7). -/
def be32 (v : Word) : List Byte :=
  [v.extractLsb' 24 8, v.extractLsb' 16 8, v.extractLsb' 8 8, v.extractLsb' 0 8]

/-- `be64(v)`: byte `j` is `v[63-8j : 56-8j]` (R7, R104). -/
def be64 (v : DWord) : List Byte :=
  [v.extractLsb' 56 8, v.extractLsb' 48 8, v.extractLsb' 40 8, v.extractLsb' 32 8,
   v.extractLsb' 24 8, v.extractLsb' 16 8, v.extractLsb' 8 8, v.extractLsb' 0 8]

/-- `from_be32(b)` on a string of four bytes (R7): `b[0]*2^24 + b[1]*2^16 + b[2]*2^8 + b[3]`, the four bytes side by side. -/
def fromBe32 (b : List Byte) : Word := b.getD 0 0 ++ b.getD 1 0 ++ b.getD 2 0 ++ b.getD 3 0

/-- The first `n` pieces of length `k` of a list, in order. -/
def chunks {α : Type} (k : Nat) : Nat → List α → List (List α)
  | 0, _ => []
  | n + 1, l => l.take k :: chunks k n (l.drop k)

/-- The bits of a `w`-bit value, from bit `w-1` down to bit 0 (R7). -/
def msbBits {w : Nat} (v : BitVec w) : Nat → List Bool
  | 0 => []
  | n + 1 => v.getLsbD n :: msbBits v n

/-- The bit string of a byte string: each byte from bit 7 down to bit 0, bytes in order (R7). -/
def bitString (s : List Byte) : List Bool := s.flatMap fun b => msbBits b 8

/-- The number a bit string forms, first bit most significant (R202, R203). -/
def bitsToNat (bs : List Bool) : Nat := bs.foldl (fun n b => 2 * n + b.toNat) 0

/-- `0x00^k` (R7). -/
def zeros (k : Nat) : List Byte := List.replicate k 0

/-- The 64 bytes `v[i] ^ x` (R182, R184, R185). -/
def xorAll (x : Byte) (v : List Byte) : List Byte := v.map (· ^^^ x)

end Sys2Proof.Machine
end

