-- ==== Sys2Proof/Machine/Base32Core.lean ====
section
/-! DEFINITION. The Base32 codec as functions (spec/30_encoding.md R108 to R111; spec/42_base32.md R202, R203). -/

namespace Sys2Proof.Machine

/-- `ALPHA[v]` (R109). -/
def Base32.alpha (v : Nat) : Byte := if v ≤ 25 then BitVec.ofNat 8 (0x41 + v) else BitVec.ofNat 8 (0x32 + (v - 26))

/-- The bit string of `X` filled on the right with `z = (5 - (8n mod 5)) mod 5` zero bits (R111, R202). -/
def Base32.filledBits (x : List Byte) : List Bool :=
  bitString x ++ List.replicate ((5 - 8 * x.length % 5) % 5) false

/-- The length of the text for `n` bytes: `8 * ceil(n / 5)` (R202, R206). -/
def Base32.textLen (n : Nat) : Nat := 8 * ((n + 4) / 5)

/-- The number of data characters for `n` bytes: `q = ceil(8n / 5)` (R202). -/
def Base32.dataChars (n : Nat) : Nat := (8 * n + 4) / 5

/-- `Enc(X)` (R202). -/
def Base32.enc (x : List Byte) : List Byte :=
  (chunks 5 (Base32.dataChars x.length) (Base32.filledBits x)).map (fun g => Base32.alpha (bitsToNat g)) ++
    List.replicate (Base32.textLen x.length - Base32.dataChars x.length) 0x3D

/-- The whitespace set of the decoder (R5, R110). -/
def Base32.isSpace (c : Byte) : Bool :=
  c == 0x09 || c == 0x0A || c == 0x0B || c == 0x0C || c == 0x0D || c == 0x20

/-- The value of an alphabet character, none for a byte outside the alphabet (R110): upper case, lower case, digits 2 to 7. -/
def Base32.charValue (c : Byte) : Option (BitVec 5) :=
  if 0x41 ≤ c.toNat ∧ c.toNat ≤ 0x5A then some (BitVec.ofNat 5 (c.toNat - 0x41))
  else if 0x61 ≤ c.toNat ∧ c.toNat ≤ 0x7A then some (BitVec.ofNat 5 (c.toNat - 0x61))
  else if 0x32 ≤ c.toNat ∧ c.toNat ≤ 0x37 then some (BitVec.ofNat 5 (c.toNat - 0x32 + 26))
  else none

/-- The scan of R203 from index `i` on, `seenEq` telling whether an `=` has been seen: the 5-bit values in order, or the
index of the first byte that may not stand there. -/
def Base32.scan : Nat → Bool → List Byte → Except Nat (List (BitVec 5))
  | _, _, [] => .ok []
  | i, seenEq, c :: cs =>
    if Base32.isSpace c then Base32.scan (i + 1) seenEq cs
    else if c = 0x3D then Base32.scan (i + 1) true cs
    else if seenEq then .error i
    else
      match Base32.charValue c with
      | none => .error i
      | some v =>
        match Base32.scan (i + 1) false cs with
        | .error j => .error j
        | .ok vs => .ok (v :: vs)

/-- The bytes of a list of 5-bit values: `floor(5m / 8)` whole bytes, the rest of the bits dropped unread (R111, R203). -/
def Base32.pack (vs : List (BitVec 5)) : List Byte :=
  (chunks 8 (5 * vs.length / 8) (vs.flatMap fun v => msbBits v 5)).map fun g => BitVec.ofNat 8 (bitsToNat g)

/-- `Dec(T)` (R203): `.error i` is `Invalid(i)`, `.ok Y` is `Ok(Y)`. -/
def Base32.dec (t : List Byte) : Except Nat (List Byte) :=
  match Base32.scan 0 false t with
  | .error i => .error i
  | .ok vs => .ok (Base32.pack vs)

/-- The most bytes a text of `n` characters can give: `cap = floor(5n / 8)` (R207). -/
def Base32.capacity (n : Nat) : Nat := 5 * n / 8

end Sys2Proof.Machine
end

