-- ==== Sys2Proof/Config.lean ====
section
/-! DEFINITION. What an implementation fixes (spec/00_scope.md R5, spec/20_memory.md R70) and the free value of an
unwritten scratchpad byte (R74). -/

namespace Sys2Proof

/-- The one OPEN parameter of the block: `MEMSZ`, a power of two from 256 to 65536 (R5, R70). It is held as the selector
`AW - 8`, 0 to 8, so that no other size can be written down. DESIGN CHOICE, notes/assumptions/1.md: the value stands in
`State.cfg`, which no step writes, so that a statement about every state is one about every `MEMSZ`. -/
structure Config where
  awSel : Fin 9
deriving DecidableEq, Repr

/-- `AW = log2(MEMSZ)`, 8 to 16 (R70). -/
def Config.aw (c : Config) : Nat := 8 + c.awSel.val

/-- `MEMSZ = 2^AW` (R70). -/
def Config.memSize (c : Config) : Nat := 2 ^ c.aw

/-- The default size, 4096 bytes, `AW` = 12 (R5, R70). -/
def Config.standard : Config := ⟨4⟩

/-- FREE VALUE (R74, spec/93_implementation_defined.md I1): what the `k`-th byte read of `MEM` returns when the byte has
not been written since the last reset. It has no body: nothing can be proved about its value. `State.draws` counts the
byte reads, so two reads of one unwritten byte are two draws. notes/assumptions/2.md. -/
opaque Config.freeByte : Nat → Byte

end Sys2Proof
end

