-- ==== Sys2Proof/Machine/State.lean ====
section
/-! DEFINITION. The whole state of the block (spec/10_state.md R21, R45), its reset value (spec/70_reset_and_hazards.md
R331), the events that reach it (R20, R75, R330) and the ways a step can stop. -/

namespace Sys2Proof.Machine

/-- `STATUS.ST` (R30): the value 3 is never produced, so it has no constructor. -/
inductive Stream where
  | idle
  | sha
  | hmac
deriving DecidableEq, Repr

/-- `STATUS.ERRCODE` (R30, R291): 6 to 15 are never produced, so they have no constructor. -/
inductive ErrCode where
  | noError
  | illcmd    -- E_ILLCMD
  | seq       -- E_SEQ
  | bounds    -- E_BOUNDS
  | overlap   -- E_OVERLAP
  | b32char   -- E_B32CHAR
deriving DecidableEq, Repr

/-- The named words of the port (R22). Indices 29 to 63 hold no register. -/
inductive Reg where
  | id | param | ctrl | status | cmd
  | src | len | dst | keya | keyl
  | rlen | einfo | maddr | mdata
  | nowl | nowh | offs | cntl | cnth
  | value | code | bcd
  | h0 | h1 | h2 | h3 | h4
  | mlenl | mlenh
deriving DecidableEq, Repr

/-- What reaches the block from outside, in the order in which it happens (R20, R75, R270, R330). -/
inductive Event where
  /-- HOST presents a read of word index `a` (R76). -/
  | read (a : BitVec 6)
  /-- HOST presents a write of `wdata` to word index `a` (R78). -/
  | write (a : BitVec 6) (wdata : Word)
  /-- It is the sequencer's turn: the point at which the complete step falls among the host's `STATUS` reads, which the
  spec leaves open (R270, R345). -/
  | seq
  /-- An edge of `clk` with `rst` = 1 (R330). -/
  | reset
deriving DecidableEq, Repr

/-- The five working words of the 80 rounds (R45, R147). -/
structure Working where
  a : Word
  b : Word
  c : Word
  d : Word
  e : Word
deriving DecidableEq, Repr

/-- Working storage of one compression (R21, R45): the schedule `W[0..79]`, the words `a..e` and the round index `t`. Dead
outside a command. -/
structure Work where
  w : Vector Word 80
  vars : Working
  t : BitVec 7
deriving DecidableEq, Repr

/-- The SHA-1 unit: `H[0..4]`, `MLEN`, `BUF[0..63]` (R43, R44, R45) and its working storage. -/
structure Sha1Unit where
  h : Vector Word 5
  mlen : DWord
  buf : Vector Byte 64
  work : Work
deriving DecidableEq, Repr

/-- The scratchpad as its written bytes: address and content, addresses strictly rising (R70). An address not listed has not
been written since the last reset and has no value (R74). -/
abbrev Memory := List Host.Cell

/-- Every element of R21, in its order, then what the model itself needs: the configuration, the events to come, the data
of the last completed read and the counter of free values. -/
structure State where
  /-- `CTRL.IE_DONE`. -/
  ieDone : Bool
  /-- `CTRL.IE_ERR`. -/
  ieErr : Bool
  /-- `STATUS.BUSY`. -/
  busy : Bool
  /-- `STATUS.DONE`. -/
  done : Bool
  /-- `STATUS.ERR`. -/
  err : Bool
  /-- `STATUS.MATCH`. -/
  matched : Bool
  /-- `STATUS.ST`. -/
  st : Stream
  /-- `STATUS.ERRCODE`. -/
  errcode : ErrCode
  einfo : Word
  /-- The accepted command word (hidden). notes/assumptions/10.md. -/
  cw : Word
  src : Word
  len : Word
  dst : Word
  keya : Word
  keyl : Word
  rlen : Word
  /-- An `AW`-bit pointer held in 16 bits, the largest `AW`; it stays below `MEMSZ` (R46 (i)).
  notes/assumptions/12.md. -/
  maddr : BitVec 16
  now : DWord
  offs : Word
  cnt : DWord
  value : BitVec 31
  code : BitVec 20
  bcd : BitVec 24
  /-- `H`, `MLEN`, `BUF`, `W`, `a..e`, `t`. -/
  sha : Sha1Unit
  kblk : Vector Byte 64
  mem : Memory
  /-- The model's own: `MEMSZ` (R70), written by no step. notes/assumptions/1.md. -/
  cfg : Config
  /-- The model's own: the host's transactions, the sequencer's turns and the resets still to come.
  notes/assumptions/3.md. -/
  agenda : List Event
  /-- The model's own: the `rdata` of the last completed read (R75), none before the first. notes/assumptions/4.md. -/
  rdata : Option Word
  /-- The model's own: how many byte reads of `MEM` there have been, the index of the next free value.
  notes/assumptions/2.md. -/
  draws : Nat
deriving DecidableEq, Repr

/-- Reasons for which the hardware itself stops. There is none: the spec gives the block no event that halts it (R290, R345),
every port access completes or is held (R23, R77) and a failing command is a next state with its error recorded (R292). notes/assumptions/14.md. -/
inductive Fault where
deriving DecidableEq, Repr

/-- Reasons for which the model stops short of the hardware. -/
inductive Refusal where
  /-- Raised by `exec` for a command that has no meaning yet, by name. Safe: the hardware goes on. No arm raises it. -/
  | notModelled (mnemonic : String)
deriving DecidableEq, Repr

/-- 64 zero bytes: the reset value of `BUF` and of `KBLK` (R331). -/
def zeroBlock : Vector Byte 64 := Vector.replicate 64 0

/-- The working storage, all zero (R331, R277). -/
def Work.zero : Work := ⟨Vector.replicate 80 0, ⟨0, 0, 0, 0, 0⟩, 0⟩

/-- The SHA-1 unit after reset and after `SYS.ZERO`: all zero, `H` too (R331, R277). -/
def Sha1Unit.zero : Sha1Unit := ⟨Vector.replicate 5 0, 0, zeroBlock, Work.zero⟩

/-- The reset state (R331) of a block of size `c`: every element zero, and `MEM` unwritten. -/
def State.resetOf (c : Config) : State where
  ieDone := false
  ieErr := false
  busy := false
  done := false
  err := false
  matched := false
  st := .idle
  errcode := .noError
  einfo := 0
  cw := 0
  src := 0
  len := 0
  dst := 0
  keya := 0
  keyl := 0
  rlen := 0
  maddr := 0
  now := 0
  offs := 0
  cnt := 0
  value := 0
  code := 0
  bcd := 0
  sha := Sha1Unit.zero
  kblk := zeroBlock
  mem := []
  cfg := c
  agenda := []
  rdata := none
  draws := 0

/-- The machine right after reset, at the default `MEMSZ` = 4096 (R331, R70), with nothing presented on the port. -/
def State.reset : State := State.resetOf Config.standard

end Sys2Proof.Machine
end

