-- ==== Sys2Proof/Machine/Flags.lean ====
section
/-! DEFINITION. The flags: how `STATUS` and `CTRL` are composed (spec/20_memory.md R76; spec/10_state.md R29, R30), the
interrupt output computed from them (spec/60_exceptions.md R302), and the host's clearing of `DONE` (R30). -/

namespace Sys2Proof.Machine

/-- The number of `STATUS.ST` (R30). -/
def Stream.code : Stream → Nat
  | .idle => 0
  | .sha => 1
  | .hmac => 2

/-- The number of an error (R291); 0 is no error. -/
def ErrCode.code : ErrCode → Nat
  | .noError => 0
  | .illcmd => 1
  | .seq => 2
  | .bounds => 3
  | .overlap => 4
  | .b32char => 5

/-- `STATUS` as it is read (R76): `ERRCODE*2^8 + ST*2^4 + MATCH*8 + ERR*4 + DONE*2 + BUSY`. -/
def State.statusWord (s : State) : Word :=
  BitVec.ofNat 32 (s.errcode.code * 2 ^ 8 + s.st.code * 2 ^ 4 + s.matched.toNat * 8 + s.err.toNat * 4 +
    s.done.toNat * 2 + s.busy.toNat)

/-- `CTRL` as it is read (R76): `IE_ERR * 2 + IE_DONE`. -/
def State.ctrlWord (s : State) : Word := BitVec.ofNat 32 (s.ieErr.toNat * 2 + s.ieDone.toNat)

/-- The level of the output `irq` (R302). -/
def State.irq (s : State) : Bool := (s.done && s.ieDone) || (s.err && s.ieErr)

/-- Writing 1 to `STATUS.DONE` clears it, writing 0 leaves it (R23, R30). -/
def State.clearDone (bit : Bool) (s : State) : State := if bit then { s with done := false } else s

end Sys2Proof.Machine
end

