-- ==== Sys2Proof/Machine/Operands.lean ====
section
/-! DEFINITION. The operand forms of the commands: a memory operand is base plus index, checked over the natural numbers
(spec/20_memory.md R71, R73, R83), and a 64-bit operand is two 32-bit halves (spec/30_encoding.md R122). -/

namespace Sys2Proof.Machine

/-- `MEMSZ` of this block (R70). -/
def State.memSize (s : State) : Nat := s.cfg.memSize

/-- `InBounds(base, n)` (R73): `base + n <= MEMSZ` over the natural numbers, also for `n = 0`. -/
def State.inBounds (s : State) (base : Word) (n : Nat) : Bool := base.toNat + n ≤ s.memSize

/-- `Overlap(a, n, b, m)` (R83): the ranges `[a, a+n)` and `[b, b+m)` share a byte. -/
def overlap (a n b m : Nat) : Bool := 0 < n && 0 < m && a < b + m && b < a + n

/-- The low word of a 64-bit register (R79, R122). -/
def lowWord (v : DWord) : Word := v.extractLsb' 0 32

/-- The high word of a 64-bit register (R79, R122). -/
def highWord (v : DWord) : Word := v.extractLsb' 32 32

/-- A 64-bit register with its low word replaced (R78). -/
def withLow (v : DWord) (w : Word) : DWord := highWord v ++ w

/-- A 64-bit register with its high word replaced (R78). -/
def withHigh (v : DWord) (w : Word) : DWord := w ++ lowWord v

end Sys2Proof.Machine
end

