-- ==== Sys2Proof/Machine/Ops.lean ====
section
/-! DEFINITION. The named operations on the state: the scratchpad (spec/20_memory.md R70, R72, R74), accepting and completing
a command (spec/44_system.md R271 to R273), raising an error and clearing it (spec/60_exceptions.md R292, R301), reset
(spec/70_reset_and_hazards.md R330 to R332). -/

namespace Sys2Proof.Machine

/-! ### The scratchpad -/

/-- The byte last written at an address, none if it has not been written since the last reset (R70, R74). -/
def Memory.get? : Memory → Nat → Option Byte
  | [], _ => none
  | (k, b) :: m, a => if a = k then some b else Memory.get? m a

/-- Writing one byte; the addresses stay strictly rising. -/
def Memory.set : Memory → Nat → Byte → Memory
  | [], a, x => [(a, x)]
  | (k, b) :: m, a, x =>
    if a < k then (a, x) :: (k, b) :: m
    else if a = k then (a, x) :: m
    else (k, b) :: Memory.set m a x

/-- Writing a byte string from address `a` on (R72). -/
def Memory.write : Memory → Nat → List Byte → Memory
  | m, _, [] => m
  | m, a, x :: xs => Memory.write (Memory.set m a x) (a + 1) xs

/-- Every byte below `n` written with 0 (R277). -/
def Memory.zeroed (n : Nat) : Memory := (List.range n).map fun a => (a, 0)

/-- The canonical form: addresses strictly rising. An unlisted address has no value, so every entry says something. -/
abbrev Memory.wf (m : Memory) : Prop := m.Pairwise fun x y => x.1 < y.1

/-- Every listed address names a byte of a scratchpad of `n` bytes (R70). -/
abbrev Memory.below (m : Memory) (n : Nat) : Prop := ∀ c ∈ m, c.1 < n

/-- What the `i`-th byte of an access returns at address `a`: the byte last written, or a free value (R74). -/
def State.memByte (s : State) (a i : Nat) : Byte := (s.mem.get? a).getD (Config.freeByte (s.draws + i))

/-- `MemRead(addr, n)` (R72, R74). -/
def State.memRead (s : State) (addr n : Nat) : List Byte :=
  (List.range n).map fun i => s.memByte (addr + i) i

/-- After an access of `n` bytes, so that the next access draws other free values (R74). -/
def State.drawn (s : State) (n : Nat) : State := { s with draws := s.draws + n }

/-- `MemWrite(addr, n, v)` (R72). -/
def State.memWrite (s : State) (addr : Nat) (v : List Byte) : State := { s with mem := s.mem.write addr v }

/-! ### Errors -/

/-- `raise E(info)` (R292): the error record, and nothing else. It is the block's one way of taking an exception: no program
counter, status or mode is saved, because there is none. -/
def State.raise (s : State) (e : ErrCode) (info : Word) : State :=
  { s with err := true, errcode := e, einfo := info }

/-- Writing 1 to `STATUS.ERR`, the "return from exception" (R301, R30): the error record is cleared; nothing is resumed. -/
def State.clearErr (bit : Bool) (s : State) : State :=
  if bit then { s with err := false, errcode := .noError, einfo := 0 } else s

/-! ### Accepting and completing a command -/

/-- The accept step (R271): the word is latched, `BUSY` set, `DONE` cleared, and nothing checked. -/
def State.accept (s : State) (w : Word) : State := { s with cw := w, busy := true, done := false }

/-- The last two lines of every complete step (R272). -/
def State.finished (s : State) : State := { s with busy := false, done := true }

/-- The complete step of a command with the given effect (R272): discarded while `ERR` = 1 (R273), else the effect; then
`BUSY <- 0`, `DONE <- 1`. -/
def State.complete (effect : State → State) (s : State) : State := (if s.err then s else effect s).finished

/-! ### Reset -/

/-- The reset event (R330, R331, R332): every element at its reset value, `MEM` unwritten, a command in flight abandoned.
The configuration, the events to come and the count of free values are not the block's state and stay. -/
def State.resetBlock (s : State) : State :=
  { State.resetOf s.cfg with agenda := s.agenda, draws := s.draws }

end Sys2Proof.Machine
end

