-- ==== Sys2Proof/Machine/Base32.lean ====
section
/-! DEFINITION. The `B32.*` commands (spec/42_base32.md R206, R207). -/

namespace Sys2Proof.Machine

/-- `B32.ENC` (R206). -/
def b32EncEffect (s : State) : State :=
  let n := Base32.textLen s.len.toNat
  if !s.inBounds s.src s.len.toNat then s.raise .bounds s.cw
  else if !s.inBounds s.dst n then s.raise .bounds s.cw
  else if overlap s.src.toNat s.len.toNat s.dst.toNat n then s.raise .overlap s.cw
  else
    { (s.drawn s.len.toNat).memWrite s.dst.toNat (Base32.enc (s.memRead s.src.toNat s.len.toNat)) with
      rlen := BitVec.ofNat 32 n }

/-- `B32.ENC` (R206). -/
def execB32Enc (s : State) : Host.Outcome State Fault Refusal := .next (s.complete b32EncEffect)

/-- `B32.DEC` (R207): the whole text is scanned before a byte is written; `E_B32CHAR` records the index. -/
def b32DecEffect (s : State) : State :=
  let cap := Base32.capacity s.len.toNat
  if !s.inBounds s.src s.len.toNat then s.raise .bounds s.cw
  else if !s.inBounds s.dst cap then s.raise .bounds s.cw
  else if overlap s.src.toNat s.len.toNat s.dst.toNat cap then s.raise .overlap s.cw
  else
    match Base32.dec (s.memRead s.src.toNat s.len.toNat) with
    | .error i => (s.drawn s.len.toNat).raise .b32char (BitVec.ofNat 32 i)
    | .ok y =>
      { (s.drawn s.len.toNat).memWrite s.dst.toNat y with rlen := BitVec.ofNat 32 y.length }

/-- `B32.DEC` (R207). -/
def execB32Dec (s : State) : Host.Outcome State Fault Refusal := .next (s.complete b32DecEffect)

end Sys2Proof.Machine
end

