-- ==== Sys2Proof/Machine/Sha1Core.lean ====
section
/-! DEFINITION. The SHA-1 unit as functions (spec/40_sha1.md R140 to R148, R154, R155): padding, schedule, rounds,
compression, the hash, and the two stream helpers on the unit's registers. -/

namespace Sys2Proof.Machine

/-- `IV` (R141). -/
def Sha1.iv : Vector Word 5 := #v[0x67452301, 0xEFCDAB89, 0x98BADCFE, 0x10325476, 0xC3D2E1F0]

/-- `Pad(r, L)` (R142): `0x80 ++ 0x00^k ++ be64(L)` with `k = (55 - r) mod 64`, for `r <= 63`. -/
def Sha1.pad (r : Nat) (bitLen : DWord) : List Byte := [0x80] ++ zeros ((119 - r) % 64) ++ be64 bitLen

/-- `Words(B)` (R143): sixteen big-endian words of a 64-byte block. -/
def Sha1.blockWords (blk : List Byte) : List Word := (chunks 4 16 blk).map fromBe32

/-- The next word of the schedule from the words so far, newest first (R144): `w[j-3]`, `w[j-8]`, `w[j-14]`, `w[j-16]` stand
at positions 2, 7, 13, 15. -/
def Sha1.nextWord (newest : List Word) : Word :=
  rotl (newest.getD 2 0 ^^^ newest.getD 7 0 ^^^ newest.getD 13 0 ^^^ newest.getD 15 0) 1

/-- `n` schedule steps (R144) on the words so far, newest first. -/
def Sha1.expand : Nat → List Word → List Word
  | 0, ws => ws
  | n + 1, ws => Sha1.expand n (Sha1.nextWord ws :: ws)

/-- `Schedule(B)` (R144): the 80 words `w[0..79]`. -/
def Sha1.schedule (blk : List Byte) : List Word := (Sha1.expand 64 (Sha1.blockWords blk).reverse).reverse

/-- `f(t, b, c, d)` (R145). -/
def Sha1.f (t : Nat) (b c d : Word) : Word :=
  if t < 20 then (b &&& c) ||| (~~~b &&& d)
  else if t < 40 then b ^^^ c ^^^ d
  else if t < 60 then (b &&& c) ||| (b &&& d) ||| (c &&& d)
  else b ^^^ c ^^^ d

/-- `K(t)` (R145). -/
def Sha1.k (t : Nat) : Word :=
  if t < 20 then 0x5A827999 else if t < 40 then 0x6ED9EBA1 else if t < 60 then 0x8F1BBCDC else 0xCA62C1D6

/-- `Round(t, (a, b, c, d, e), wt)` (R146). -/
def Sha1.step (t : Nat) (v : Working) (wt : Word) : Working where
  a := rotl v.a 5 + Sha1.f t v.b v.c v.d + v.e + Sha1.k t + wt
  b := v.a
  c := rotl v.b 30
  d := v.c
  e := v.d

/-- The rounds `t`, `t+1`, … over the given schedule words (R147). -/
def Sha1.rounds : Nat → List Word → Working → Working
  | _, [], v => v
  | t, wt :: ws, v => Sha1.rounds (t + 1) ws (Sha1.step t v wt)

/-- The working words start as the chaining value (R147). -/
def Sha1.load (h : Vector Word 5) : Working := ⟨h[0], h[1], h[2], h[3], h[4]⟩

/-- The working words after the 80 rounds (R147). -/
def Sha1.finalVars (h : Vector Word 5) (blk : List Byte) : Working :=
  Sha1.rounds 0 (Sha1.schedule blk) (Sha1.load h)

/-- `Compress(Hin, B)` (R147). -/
def Sha1.compress (h : Vector Word 5) (blk : List Byte) : Vector Word 5 :=
  let v := Sha1.finalVars h blk
  #v[h[0] + v.a, h[1] + v.b, h[2] + v.c, h[3] + v.d, h[4] + v.e]

/-- What one compression leaves in the working storage (R45, R147): the whole schedule, the last working words, and the last
round index. DEDUCED, notes/assumptions/5.md: the spec calls these dead outside a command. -/
def Sha1.leftWork (h : Vector Word 5) (blk : List Byte) : Work where
  w := Vector.ofFn fun i => (Sha1.schedule blk).getD i.val 0
  vars := Sha1.finalVars h blk
  t := 79

/-- `Digest(H)` (R103, R148). -/
def Sha1.digest (h : Vector Word 5) : List Byte := be32 h[0] ++ be32 h[1] ++ be32 h[2] ++ be32 h[3] ++ be32 h[4]

/-- The words `from_be32(dg[4i .. 4i+4))` of a 20-byte digest (R153, R183). -/
def Sha1.digestWords (dg : List Byte) : Vector Word 5 :=
  Vector.ofFn fun i => fromBe32 (dg.drop (4 * i.val))

/-- `M ++ Pad(n mod 64, (8n) mod 2^64)` (R102, R148). -/
def Sha1.padded (m : List Byte) : List Byte := m ++ Sha1.pad (m.length % 64) (BitVec.ofNat 64 (8 * m.length))

/-- The 64-byte blocks of a padded message (R148). -/
def Sha1.blocks (m : List Byte) : List (List Byte) := chunks 64 ((Sha1.padded m).length / 64) (Sha1.padded m)

/-- `SHA1(M)` (R148). -/
def Sha1.hash (m : List Byte) : List Byte := Sha1.digest ((Sha1.blocks m).foldl Sha1.compress Sha1.iv)

/-- One compression in the unit: `H <- Compress(H, B)`, and the working storage with it (R147, R24). -/
def Sha1Unit.compress (u : Sha1Unit) (blk : List Byte) : Sha1Unit :=
  { u with h := Sha1.compress u.h blk, work := Sha1.leftWork u.h blk }

/-- The unit after it has run the compressions of `SHA1(M)` from `IV` (R148): `H` holds the digest words. -/
def Sha1Unit.hash (u : Sha1Unit) (m : List Byte) : Sha1Unit :=
  (Sha1.blocks m).foldl Sha1Unit.compress { u with h := Sha1.iv }

/-- `BUFN = MLEN[8:3]`, the number of bytes held in `BUF` (R44). -/
def bufCount (mlen : DWord) : Fin 64 := (mlen.extractLsb' 3 6).toFin

/-- One byte of `Absorb` (R154). -/
def Sha1Unit.absorbByte (u : Sha1Unit) (x : Byte) : Sha1Unit :=
  let stored := { u with buf := u.buf.set (bufCount u.mlen) x, mlen := u.mlen + 8 }
  if bufCount stored.mlen = 0 then stored.compress stored.buf.toList else stored

/-- `Absorb(X)` (R154). -/
def Sha1Unit.absorb (u : Sha1Unit) (xs : List Byte) : Sha1Unit := xs.foldl Sha1Unit.absorbByte u

/-- The text `T` that `Finish` compresses: the buffered bytes and the padding (R155). -/
def Sha1Unit.lastBlocks (u : Sha1Unit) : List Byte :=
  u.buf.toList.take (bufCount u.mlen) ++ Sha1.pad (bufCount u.mlen) u.mlen

/-- `Finish()` (R155): `H` holds the digest words afterwards, and the digest is `Sha1.digest` of it. -/
def Sha1Unit.finish (u : Sha1Unit) : Sha1Unit :=
  let one := u.compress (u.lastBlocks.take 64)
  if (bufCount u.mlen).val < 56 then one else one.compress ((u.lastBlocks.drop 64).take 64)

/-- `H <- IV`, `MLEN <- 0`, `BUF <- 0x00^64` (R149, R184). -/
def Sha1Unit.opened (u : Sha1Unit) : Sha1Unit := { u with h := Sha1.iv, mlen := 0, buf := zeroBlock }

/-- `MLEN <- 0`, `BUF <- 0x00^64`, `H` kept (R151, R153, R183, R185). -/
def Sha1Unit.closed (u : Sha1Unit) : Sha1Unit := { u with mlen := 0, buf := zeroBlock }

end Sys2Proof.Machine
end

