-- ==== Sys2Proof/Machine/HmacCore.lean ====
section
/-! DEFINITION. HMAC-SHA1 as a function (spec/41_hmac.md R180 to R182). -/

namespace Sys2Proof.Machine

/-- `k'` of R181: a key longer than 64 bytes is replaced by its hash; a key of exactly 64 bytes is not. -/
def Hmac.shortKey (key : List Byte) : List Byte := if 64 < key.length then Sha1.hash key else key

/-- `KeyBlock(key)` (R181): `k' ++ 0x00^(64 - |k'|)`. -/
def Hmac.keyBlock (key : List Byte) : List Byte :=
  Hmac.shortKey key ++ zeros (64 - (Hmac.shortKey key).length)

/-- The inner pad (R182). -/
def Hmac.ipad (kb : List Byte) : List Byte := xorAll 0x36 kb

/-- The outer pad (R182). -/
def Hmac.opad (kb : List Byte) : List Byte := xorAll 0x5c kb

/-- What the outer hash is run on: `opad ++ SHA1(ipad ++ message)` (R182), 84 bytes. -/
def Hmac.outerInput (key message : List Byte) : List Byte :=
  Hmac.opad (Hmac.keyBlock key) ++ Sha1.hash (Hmac.ipad (Hmac.keyBlock key) ++ message)

/-- `HMAC(key, message)` (R182). -/
def Hmac.mac (key message : List Byte) : List Byte := Sha1.hash (Hmac.outerInput key message)

/-- A 64-byte string as the register `KBLK`. -/
def toBlock (s : List Byte) : Vector Byte 64 := Vector.ofFn fun i => s.getD i.val 0

end Sys2Proof.Machine
end

