-- ==== Sys2Proof/Machine/Sha1.lean ====
section
/-! DEFINITION. The `SHA1.*` commands (spec/40_sha1.md R149 to R153). -/

namespace Sys2Proof.Machine

/-- `SHA1.INIT` (R149). -/
def sha1InitEffect (s : State) : State := { s with sha := s.sha.opened, kblk := zeroBlock, st := .sha }

/-- `SHA1.INIT` (R149). -/
def execSha1Init (s : State) : Host.Outcome State Fault Refusal := .next (s.complete sha1InitEffect)

/-- `SHA1.UPDATE` (R150). -/
def sha1UpdateEffect (s : State) : State :=
  if s.st = .idle then s.raise .seq s.cw
  else if !s.inBounds s.src s.len.toNat then s.raise .bounds s.cw
  else { s.drawn s.len.toNat with sha := s.sha.absorb (s.memRead s.src.toNat s.len.toNat) }

/-- `SHA1.UPDATE` (R150). -/
def execSha1Update (s : State) : Host.Outcome State Fault Refusal := .next (s.complete sha1UpdateEffect)

/-- `SHA1.FINAL` (R151). -/
def sha1FinalEffect (s : State) : State :=
  if s.st ≠ .sha then s.raise .seq s.cw
  else if !s.inBounds s.dst 20 then s.raise .bounds s.cw
  else
    { s.memWrite s.dst.toNat (Sha1.digest s.sha.finish.h) with
      rlen := 20, sha := s.sha.finish.closed, st := .idle }

/-- `SHA1.FINAL` (R151). -/
def execSha1Final (s : State) : Host.Outcome State Fault Refusal := .next (s.complete sha1FinalEffect)

/-- `SHA1.BLOCK` (R152): `H` only. -/
def sha1BlockEffect (s : State) : State :=
  if !s.inBounds s.src 64 then s.raise .bounds s.cw
  else { s.drawn 64 with sha := s.sha.compress (s.memRead s.src.toNat 64) }

/-- `SHA1.BLOCK` (R152). -/
def execSha1Block (s : State) : Host.Outcome State Fault Refusal := .next (s.complete sha1BlockEffect)

/-- The common end of the one-shot commands (R153, R183): the digest `dg` into `H` and `MEM`, the stream context cleared.
`work` is what the last compression left in the working storage. -/
def State.deliver (s : State) (dg : List Byte) (work : Work) : State :=
  { s.memWrite s.dst.toNat dg with
    sha := ⟨Sha1.digestWords dg, 0, zeroBlock, work⟩
    rlen := 20
    kblk := zeroBlock
    st := .idle }

/-- `SHA1.HASH` (R153). -/
def sha1HashEffect (s : State) : State :=
  if !s.inBounds s.src s.len.toNat then s.raise .bounds s.cw
  else if !s.inBounds s.dst 20 then s.raise .bounds s.cw
  else
    let msg := s.memRead s.src.toNat s.len.toNat
    (s.drawn s.len.toNat).deliver (Sha1.hash msg) (s.sha.hash msg).work

/-- `SHA1.HASH` (R153). -/
def execSha1Hash (s : State) : Host.Outcome State Fault Refusal := .next (s.complete sha1HashEffect)

end Sys2Proof.Machine
end

