-- ==== Sys2Proof/Machine/Hmac.lean ====
section
/-! DEFINITION. The `HMAC.*` commands (spec/41_hmac.md R183 to R185). -/

namespace Sys2Proof.Machine

/-- `HMAC.MAC` (R183): the key and then the message are read, both before anything is written (R83, R91). -/
def hmacMacEffect (s : State) : State :=
  if !s.inBounds s.keya s.keyl.toNat then s.raise .bounds s.cw
  else if !s.inBounds s.src s.len.toNat then s.raise .bounds s.cw
  else if !s.inBounds s.dst 20 then s.raise .bounds s.cw
  else
    let key := s.memRead s.keya.toNat s.keyl.toNat
    let msg := (s.drawn s.keyl.toNat).memRead s.src.toNat s.len.toNat
    ((s.drawn s.keyl.toNat).drawn s.len.toNat).deliver (Hmac.mac key msg) (s.sha.hash (Hmac.outerInput key msg)).work

/-- `HMAC.MAC` (R183). -/
def execHmacMac (s : State) : Host.Outcome State Fault Refusal := .next (s.complete hmacMacEffect)

/-- `HMAC.INIT` (R184): the hash of a long key leaves no trace in the unit. -/
def hmacInitEffect (s : State) : State :=
  if !s.inBounds s.keya s.keyl.toNat then s.raise .bounds s.cw
  else
    let kb := Hmac.keyBlock (s.memRead s.keya.toNat s.keyl.toNat)
    { s.drawn s.keyl.toNat with
      kblk := toBlock kb
      sha := s.sha.opened.absorb (Hmac.ipad kb)
      st := .hmac }

/-- `HMAC.INIT` (R184). -/
def execHmacInit (s : State) : Host.Outcome State Fault Refusal := .next (s.complete hmacInitEffect)

/-- The outer hash of R185 on the unit: `H <- IV`, `MLEN <- 0`, the outer pad and the inner digest absorbed, closed by
`Finish`. -/
def Sha1Unit.outer (u : Sha1Unit) (kb inner : List Byte) : Sha1Unit :=
  (({ u with h := Sha1.iv, mlen := 0 }.absorb (Hmac.opad kb)).absorb inner).finish

/-- `HMAC.FINAL` (R185). -/
def hmacFinalEffect (s : State) : State :=
  if s.st ≠ .hmac then s.raise .seq s.cw
  else if !s.inBounds s.dst 20 then s.raise .bounds s.cw
  else
    let inner := s.sha.finish
    let outer := inner.outer s.kblk.toList (Sha1.digest inner.h)
    { s.memWrite s.dst.toNat (Sha1.digest outer.h) with
      rlen := 20, sha := outer.closed, kblk := zeroBlock, st := .idle }

/-- `HMAC.FINAL` (R185). -/
def execHmacFinal (s : State) : Host.Outcome State Fault Refusal := .next (s.complete hmacFinalEffect)

end Sys2Proof.Machine
end

