-- ==== Sys2Proof/Machine/System.lean ====
section
/-! DEFINITION. The system commands `NOP` and `SYS.ZERO` (spec/44_system.md R276, R277) and the complete step of an illegal
word (spec/60_exceptions.md R293). -/

namespace Sys2Proof.Machine

/-- `NOP` (R276): skip. -/
def nopEffect (s : State) : State := s

/-- `NOP` (R276). -/
def execNop (s : State) : Host.Outcome State Fault Refusal := .next (s.complete nopEffect)

/-- `SYS.ZERO` (R277): the scratchpad and everything derived from a secret; `CTRL`, the operand registers, `MADDR`, `NOW`,
`OFFS` stay. Every byte of `MEM` counts as written afterwards. -/
def sysZeroEffect (s : State) : State :=
  { s with
    mem := Memory.zeroed s.memSize
    kblk := zeroBlock
    sha := Sha1Unit.zero
    st := .idle
    cnt := 0
    value := 0
    code := 0
    bcd := 0
    rlen := 0
    matched := false }

/-- `SYS.ZERO` (R277). -/
def execSysZero (s : State) : Host.Outcome State Fault Refusal := .next (s.complete sysZeroEffect)

/-- An illegal word (R272, R293): `E_ILLCMD` with `EINFO <- CW`. -/
def illegalEffect (s : State) : State := s.raise .illcmd s.cw

/-- The complete step of an illegal word (R272, R293). -/
def completeIllegal (s : State) : State := s.complete illegalEffect

end Sys2Proof.Machine
end

