-- ==== Sys2Proof/Machine/TotpCore.lean ====
section
/-! DEFINITION. The TOTP unit as functions (spec/43_totp.md R230 to R233, R240) and the functions `generate` and `verify` that
the host sequences realise (R230, R250, R251). -/

namespace Sys2Proof.Machine

/-- `Counter(now, off) = (floor(now / 30) + off) mod 2^64` (R231, R234): unsigned division by 30, then the sign-extended
offset added, carry discarded. -/
def Totp.counter (now : DWord) (offs : Word) : DWord := BitVec.ofNat 64 (now.toNat / 30) + offs.signExtend 64

/-- The window offset `o = d[19] & 0x0F` (R106, R232). -/
def Totp.window (d : List Byte) : Nat := (d.getD 19 0 &&& 0x0F).toNat

/-- `Trunc(d)` (R106, R232): the four bytes from the window's offset side by side, the top bit of the first dropped. The
rule's sum joins disjoint bit fields, so it is this string of 31 bits. -/
def Totp.trunc (d : List Byte) : BitVec 31 :=
  (d.getD (Totp.window d) 0).extractLsb' 0 7 ++ d.getD (Totp.window d + 1) 0 ++ d.getD (Totp.window d + 2) 0 ++
    d.getD (Totp.window d + 3) 0

/-- `Code(v) = v mod 1000000` (R233). -/
def Totp.codeOf (v : BitVec 31) : BitVec 20 := BitVec.ofNat 20 (v.toNat % 1000000)

/-- `Digit(c, k) = floor(c / 10^k) mod 10` (R233). -/
def Totp.digit (c : BitVec 20) (k : Nat) : Nat := c.toNat / 10 ^ k % 10

/-- `BCD` of a code: digit `k` in bits `4k+3 : 4k` (R42, R239). -/
def Totp.bcdOf (c : BitVec 20) : BitVec 24 :=
  BitVec.ofNat 4 (Totp.digit c 5) ++ BitVec.ofNat 4 (Totp.digit c 4) ++ BitVec.ofNat 4 (Totp.digit c 3) ++
    BitVec.ofNat 4 (Totp.digit c 2) ++ BitVec.ofNat 4 (Totp.digit c 1) ++ BitVec.ofNat 4 (Totp.digit c 0)

/-- The six ASCII digits of a code, the leading one first (R107, R239). -/
def Totp.text (c : BitVec 20) : List Byte :=
  [5, 4, 3, 2, 1, 0].map fun k => BitVec.ofNat 8 (0x30 + Totp.digit c k)

/-- Digit `k` of `BCD`, bits `4k+3 : 4k` (R42). -/
def bcdDigit (bcd : BitVec 24) (k : Nat) : Nat := (bcd.extractLsb' (4 * k) 4).toNat

/-- `valid` of R240: every byte is an ASCII digit. -/
def Totp.allDigits (c : List Byte) : Bool := c.all fun b => 0x30 ≤ b.toNat && b.toNat ≤ 0x39

/-- `equal` of R240: byte `j` is `0x30 + BCD[4*(5-j)+3 : 4*(5-j)]` for `j` = 0 to 5. All six bytes are examined. -/
def Totp.sameDigits (bcd : BitVec 24) (c : List Byte) : Bool :=
  (List.range 6).all fun j => (c.getD j 0).toNat == 0x30 + bcdDigit bcd (5 - j)

/-- `generate` (R230, R250) with the counter computed as `TOTP.CTR` does: the six characters, or the index of the first
invalid byte of the secret. -/
def Totp.generate (secret : List Byte) (offs : Word) (now : DWord) : Except Nat (List Byte) :=
  match Base32.dec secret with
  | .error i => .error i
  | .ok key => .ok (Totp.text (Totp.codeOf (Totp.trunc (Hmac.mac key (be64 (Totp.counter now offs))))))

/-- The offsets of R251 in its order: 0, -1, +1, -2, +2, …, every integer of absolute value at most `window`; none for a
negative `window`. -/
def Totp.offsets (window : Int) : List Int :=
  if window < 0 then [] else 0 :: (List.range window.toNat).flatMap fun k => [-(k + 1 : Int), (k + 1 : Int)]

/-- `verify` (R251): the secret is decoded once, and an invalid one is the failure that propagates; a candidate that is not
six digits matches nothing. An offset outside the range [-2^31, 2^31) of R231, which R251 does not exclude, is reduced
modulo 2^32 to the register `OFFS`: DESIGN CHOICE, notes/assumptions/17.md. -/
def Totp.verify (secret candidate : List Byte) (window : Int) (now : DWord) : Except Nat Bool :=
  match Base32.dec secret with
  | .error i => .error i
  | .ok key => .ok <| (Totp.offsets window).any fun off =>
      candidate.length == 6 && Totp.allDigits candidate &&
        Totp.sameDigits
          (Totp.bcdOf (Totp.codeOf (Totp.trunc (Hmac.mac key (be64 (Totp.counter now (BitVec.ofInt 32 off)))))))
          candidate

end Sys2Proof.Machine
end

