-- ==== Sys2Proof/Machine/Totp.lean ====
section
/-! DEFINITION. The `TOTP.*` commands (spec/43_totp.md R235 to R240). -/

namespace Sys2Proof.Machine

/-- `TOTP.CTR` (R235). -/
def totpCtrEffect (s : State) : State := { s with cnt := Totp.counter s.now s.offs }

/-- `TOTP.CTR` (R235). -/
def execTotpCtr (s : State) : Host.Outcome State Fault Refusal := .next (s.complete totpCtrEffect)

/-- `TOTP.SER` (R236). -/
def totpSerEffect (s : State) : State :=
  if !s.inBounds s.dst 8 then s.raise .bounds s.cw
  else { s.memWrite s.dst.toNat (be64 s.cnt) with rlen := 8 }

/-- `TOTP.SER` (R236). -/
def execTotpSer (s : State) : Host.Outcome State Fault Refusal := .next (s.complete totpSerEffect)

/-- `TOTP.TRUNC` (R237). -/
def totpTruncEffect (s : State) : State :=
  if !s.inBounds s.src 20 then s.raise .bounds s.cw
  else { s.drawn 20 with value := Totp.trunc (s.memRead s.src.toNat 20) }

/-- `TOTP.TRUNC` (R237). -/
def execTotpTrunc (s : State) : Host.Outcome State Fault Refusal := .next (s.complete totpTruncEffect)

/-- `TOTP.MOD` (R238). -/
def totpModEffect (s : State) : State := { s with code := Totp.codeOf s.value }

/-- `TOTP.MOD` (R238). -/
def execTotpMod (s : State) : Host.Outcome State Fault Refusal := .next (s.complete totpModEffect)

/-- `TOTP.DIG` (R239). -/
def totpDigEffect (s : State) : State :=
  if !s.inBounds s.dst 6 then s.raise .bounds s.cw
  else { s.memWrite s.dst.toNat (Totp.text s.code) with bcd := Totp.bcdOf s.code, rlen := 6 }

/-- `TOTP.DIG` (R239). -/
def execTotpDig (s : State) : Host.Outcome State Fault Refusal := .next (s.complete totpDigEffect)

/-- `TOTP.CMP` (R240): a candidate whose length is not 6 is a non-match without any access to `MEM`. -/
def totpCmpEffect (s : State) : State :=
  if s.len ≠ 6 then { s with matched := false }
  else if !s.inBounds s.src 6 then s.raise .bounds s.cw
  else
    let c := s.memRead s.src.toNat 6
    { s.drawn 6 with matched := Totp.allDigits c && Totp.sameDigits s.bcd c }

/-- `TOTP.CMP` (R240). -/
def execTotpCmp (s : State) : Host.Outcome State Fault Refusal := .next (s.complete totpCmpEffect)

end Sys2Proof.Machine
end

