-- ==== Sys2Proof/Machine/Dispatch.lean ====
section
/-! DEFINITION. The complete step of each command (spec/44_system.md R272), one arm per command. -/

namespace Sys2Proof.Machine

/-- The complete step of command `i`: the discard test, the effect of the command, `BUSY <- 0`, `DONE <- 1` (R272, R273). -/
def exec (i : Instr) (s : State) : Host.Outcome State Fault Refusal :=
  match i with
  -- system
  | .nop => Sys2Proof.Machine.execNop s
  | .sysZero => Sys2Proof.Machine.execSysZero s
  -- SHA-1 unit
  | .sha1Init => Sys2Proof.Machine.execSha1Init s
  | .sha1Update => Sys2Proof.Machine.execSha1Update s
  | .sha1Final => Sys2Proof.Machine.execSha1Final s
  | .sha1Block => Sys2Proof.Machine.execSha1Block s
  | .sha1Hash => Sys2Proof.Machine.execSha1Hash s
  -- HMAC unit
  | .hmacMac => Sys2Proof.Machine.execHmacMac s
  | .hmacInit => Sys2Proof.Machine.execHmacInit s
  | .hmacFinal => Sys2Proof.Machine.execHmacFinal s
  -- Base32 unit
  | .b32Enc => Sys2Proof.Machine.execB32Enc s
  | .b32Dec => Sys2Proof.Machine.execB32Dec s
  -- TOTP unit
  | .totpCtr => Sys2Proof.Machine.execTotpCtr s
  | .totpSer => Sys2Proof.Machine.execTotpSer s
  | .totpTrunc => Sys2Proof.Machine.execTotpTrunc s
  | .totpMod => Sys2Proof.Machine.execTotpMod s
  | .totpDig => Sys2Proof.Machine.execTotpDig s
  | .totpCmp => Sys2Proof.Machine.execTotpCmp s

end Sys2Proof.Machine
end

