-- ==== Sys2Proof/Machine/Port.lean ====
section
/-! DEFINITION. The host port (spec/20_memory.md R75 to R78): the register map (spec/10_state.md R22, R23), completed reads
and writes, and the interlock. -/

namespace Sys2Proof.Machine

/-- The word index of a register (R22). -/
def Reg.index : Reg → BitVec 6
  | .id => 0 | .param => 1 | .ctrl => 2 | .status => 3 | .cmd => 4
  | .src => 5 | .len => 6 | .dst => 7 | .keya => 8 | .keyl => 9
  | .rlen => 10 | .einfo => 11 | .maddr => 12 | .mdata => 13
  | .nowl => 14 | .nowh => 15 | .offs => 16 | .cntl => 17 | .cnth => 18
  | .value => 19 | .code => 20 | .bcd => 21
  | .h0 => 22 | .h1 => 23 | .h2 => 24 | .h3 => 25 | .h4 => 26
  | .mlenl => 27 | .mlenh => 28

/-- The register at a word index; none at 29 to 63 (R22, R23). -/
def Reg.at? (a : BitVec 6) : Option Reg :=
  match a.toNat with
  | 0 => some .id | 1 => some .param | 2 => some .ctrl | 3 => some .status | 4 => some .cmd
  | 5 => some .src | 6 => some .len | 7 => some .dst | 8 => some .keya | 9 => some .keyl
  | 10 => some .rlen | 11 => some .einfo | 12 => some .maddr | 13 => some .mdata
  | 14 => some .nowl | 15 => some .nowh | 16 => some .offs | 17 => some .cntl | 18 => some .cnth
  | 19 => some .value | 20 => some .code | 21 => some .bcd
  | 22 => some .h0 | 23 => some .h1 | 24 => some .h2 | 25 => some .h3 | 26 => some .h4
  | 27 => some .mlenl | 28 => some .mlenh
  | _ => none

/-- `ID` (R27): the ASCII bytes of "FRP7". -/
def idWord : Word := 0x46525037

/-- `PARAM` (R28): `BLK` 64, `AW`, `TSTEP` 30, `DIGITS` 6 from the top byte down. -/
def Config.paramWord (c : Config) : Word := 64#8 ++ BitVec.ofNat 8 c.aw ++ 30#8 ++ 6#8

/-- `rdata` of a completed read of a register (R76). -/
def State.readData (s : State) : Reg → Word
  | .id => idWord
  | .param => Config.paramWord s.cfg
  | .ctrl => s.ctrlWord
  | .status => s.statusWord
  | .cmd => 0
  | .src => s.src
  | .len => s.len
  | .dst => s.dst
  | .keya => s.keya
  | .keyl => s.keyl
  | .rlen => s.rlen
  | .einfo => s.einfo
  | .maddr => s.maddr.setWidth 32
  | .mdata => (s.memByte s.maddr.toNat 0).setWidth 32
  | .nowl => lowWord s.now
  | .nowh => highWord s.now
  | .offs => s.offs
  | .cntl => lowWord s.cnt
  | .cnth => highWord s.cnt
  | .value => s.value.setWidth 32
  | .code => s.code.setWidth 32
  | .bcd => s.bcd.setWidth 32
  | .h0 => s.sha.h[0]
  | .h1 => s.sha.h[1]
  | .h2 => s.sha.h[2]
  | .h3 => s.sha.h[3]
  | .h4 => s.sha.h[4]
  | .mlenl => lowWord s.sha.mlen
  | .mlenh => highWord s.sha.mlen

/-- `MADDR <- (MADDR + 1) mod MEMSZ`, after every completed `MDATA` access (R35, R36). -/
def State.bumpMaddr (s : State) : State :=
  { s with maddr := BitVec.ofNat 16 ((s.maddr.toNat + 1) % s.memSize) }

/-- A completed read of word index `a` (R76): its data, and the one side effect a read has, that of `MDATA`. -/
def State.portRead (s : State) (a : BitVec 6) : State :=
  match Reg.at? a with
  | some .mdata => { (s.drawn 1).bumpMaddr with rdata := some (s.readData .mdata) }
  | some r => { s with rdata := some (s.readData r) }
  | none => { s with rdata := some 0 }

/-- A completed write to a register (R78); a read-only register ignores it (R23). -/
def State.writeReg (s : State) (r : Reg) (wdata : Word) : State :=
  match r with
  | .ctrl => { s with ieDone := wdata.getLsbD 0, ieErr := wdata.getLsbD 1 }
  | .status => (s.clearDone (wdata.getLsbD 1)).clearErr (wdata.getLsbD 2)
  | .cmd => s.accept wdata
  | .src => { s with src := wdata }
  | .len => { s with len := wdata }
  | .dst => { s with dst := wdata }
  | .keya => { s with keya := wdata }
  | .keyl => { s with keyl := wdata }
  | .maddr => { s with maddr := BitVec.ofNat 16 (wdata.toNat % s.memSize) }
  | .mdata => (s.memWrite s.maddr.toNat [wdata.extractLsb' 0 8]).bumpMaddr
  | .nowl => { s with now := withLow s.now wdata }
  | .nowh => { s with now := withHigh s.now wdata }
  | .offs => { s with offs := wdata }
  | .cntl => { s with cnt := withLow s.cnt wdata }
  | .cnth => { s with cnt := withHigh s.cnt wdata }
  | .id | .param | .rlen | .einfo | .value | .code | .bcd => s
  | .h0 | .h1 | .h2 | .h3 | .h4 | .mlenl | .mlenh => s

/-- A completed write to word index `a` (R78); at 29 to 63 it changes nothing (R23). -/
def State.portWrite (s : State) (a : BitVec 6) (wdata : Word) : State :=
  match Reg.at? a with
  | some r => s.writeReg r wdata
  | none => s

/-- The output `ready` for a presented read (R77): 0 exactly when `BUSY` = 1 and it is not a read of `STATUS`. -/
def State.readReady (s : State) (a : BitVec 6) : Bool := !s.busy || a == Reg.index .status

/-- The output `ready` for a presented write (R77). -/
def State.writeReady (s : State) : Bool := !s.busy

/-- The event at the head of the agenda is used up. -/
def State.tookEvent (s : State) (rest : List Event) : State := { s with agenda := rest }

/-- The state in which the command word whose table bits are `w` has been accepted (R271) and the sequencer has the next
step: what a write of the word to `CMD` does, and the scheduler's choice of R270. -/
def State.loadCommand (s : State) (w : Nat) : State :=
  { s.accept (BitVec.ofNat 32 w) with agenda := .seq :: s.agenda }

end Sys2Proof.Machine
end

