-- ==== Sys2Proof/Machine/Sequencer.lean ====
section
/-! DEFINITION. What one step does (spec/44_system.md R270): a completed port transaction, the complete step of the accepted
command, or a reset. Which of them is taken is read from the agenda. -/

namespace Sys2Proof.Machine

/-- The SEQ step (R272): the accepted word is decoded and completed. It is enabled when `BUSY` = 1. -/
def seqStep (s : State) : Host.Outcome State Fault Refusal :=
  match decode s.cw with
  | .ok i => exec i s
  | .error _ => .next (completeIllegal s)

/-- One step (R270). A transaction that is not ready is held at the head of the agenda and the sequencer takes the step (R77);
with nothing presented the sequencer completes the command in flight, and an idle block keeps its state (R313). -/
def advance (s : State) : Host.Outcome State Fault Refusal :=
  match s.agenda with
  | [] => if s.busy then seqStep s else .next s
  | .reset :: rest => .next (s.tookEvent rest).resetBlock
  | .seq :: rest => if s.busy then seqStep (s.tookEvent rest) else .next (s.tookEvent rest)
  | .read a :: rest => if s.readReady a then .next ((s.tookEvent rest).portRead a) else seqStep s
  | .write a wdata :: rest => if s.writeReady then .next ((s.tookEvent rest).portWrite a wdata) else seqStep s

end Sys2Proof.Machine
end

