-- ==== Sys2Proof/Machine/Step.lean ====
section
/-! DEFINITION. One step of the block (spec/44_system.md R270), and how a command word is put where the next step runs it. -/

namespace Sys2Proof.Machine

/-- One step (R270). -/
def step (s : State) : Host.Outcome State Fault Refusal := advance s

/-- `s` with the command word whose table bits are `w` accepted and the sequencer's turn next, so that the next step decodes
and runs exactly it. notes/assumptions/6.md. -/
def State.withFetchWord (s : State) (nbits w : Nat) : State := s.loadCommand (tableWord nbits w)

end Sys2Proof.Machine
end

