-- ==== Sys2Proof/Machine/Script.lean ====
section
/-! DEFINITION. The host's script notation as lists of events (spec/30_encoding.md R125, R130) and the host sequences of
`generate` and `verify` (spec/43_totp.md R250, R251). A value the host has read is an argument;
Machine/Session.lean composes the lists with what the host reads. notes/assumptions/15.md. -/

namespace Sys2Proof.Machine

/-- `WR reg, value` (R130). -/
def Script.wr (r : Reg) (v : Word) : List Event := [.write r.index v]

/-- `RD reg` (R130). -/
def Script.rd (r : Reg) : List Event := [.read r.index]

/-- `CMD mnemonic` (R130), and the schedule in which the sequencer completes it before the next transaction (R270). -/
def Script.cmd (i : Instr) : List Event := [.write (Reg.index .cmd) (encode i), .seq]

/-- `LOADB addr, b0 … b(n-1)` (R130): n + 1 transactions. -/
def Script.loadb (addr : Word) (bs : List Byte) : List Event :=
  .write (Reg.index .maddr) addr :: bs.map fun b => .write (Reg.index .mdata) (b.setWidth 32)

/-- `READB addr, n` (R130). -/
def Script.readb (addr : Word) (n : Nat) : List Event :=
  .write (Reg.index .maddr) addr :: List.replicate n (.read (Reg.index .mdata))

/-- `WAIT` (R130) when it takes `n` reads of `STATUS`. -/
def Script.wait (n : Nat) : List Event := List.replicate n (.read (Reg.index .status))

/-- `ACK` (R130, R301): clear `DONE` and `ERR`. -/
def Script.ack : List Event := Script.wr .status 6

/-- `WR64 NOW, v` (R130). -/
def Script.wrNow (v : DWord) : List Event := Script.wr .nowl (lowWord v) ++ Script.wr .nowh (highWord v)

/-- `WR64 CNT, v` (R130). -/
def Script.wrCnt (v : DWord) : List Event := Script.wr .cntl (lowWord v) ++ Script.wr .cnth (highWord v)

/-- The addresses the host chooses (R250, R251). -/
structure Layout where
  txt : Word
  key : Word
  ctr : Word
  dig : Word
  code : Word
  cand : Word
deriving DecidableEq, Repr

/-- The first part of R250 up to the read of `STATUS` on which the host decides. A text of 2^32 characters or more has its
length reduced modulo 2^32: DESIGN CHOICE, notes/assumptions/17.md. -/
def Script.decodeText (l : Layout) (secret : List Byte) : List Event :=
  Script.loadb l.txt secret ++ Script.wr .src l.txt ++ Script.wr .len (BitVec.ofNat 32 secret.length) ++
    Script.wr .dst l.key ++ Script.cmd .b32Dec ++ Script.rd .status

/-- The first part of R250 whole, when the host does not stop on `ERR`: it takes `RLEN` as the key length. -/
def Script.decodeSecret (l : Layout) (secret : List Byte) : List Event :=
  Script.decodeText l secret ++ Script.rd .rlen

/-- The commands from the counter to the digits (R250, R251), for a decoded key of `klen` bytes. -/
def Script.codeFor (l : Layout) (klen offs : Word) : List Event :=
  Script.wr .offs offs ++ Script.cmd .totpCtr ++ Script.wr .dst l.ctr ++ Script.cmd .totpSer ++
    Script.wr .keya l.key ++ Script.wr .keyl klen ++ Script.wr .src l.ctr ++ Script.wr .len 8 ++
    Script.wr .dst l.dig ++ Script.cmd .hmacMac ++ Script.wr .src l.dig ++ Script.cmd .totpTrunc ++
    Script.cmd .totpMod ++ Script.wr .dst l.code ++ Script.cmd .totpDig

/-- The second part of R250: time and offset, the commands, and the six characters read back. -/
def Script.generate (l : Layout) (klen offs : Word) (now : DWord) : List Event :=
  Script.wrNow now ++ Script.codeFor l klen offs ++ Script.readb l.code 6

/-- What R251 does once before its loop: a candidate of six characters is loaded, one of another length is not, and the time
is written. -/
def Script.verifyStart (l : Layout) (candidate : List Byte) (now : DWord) : List Event :=
  (if candidate.length = 6 then Script.loadb l.cand candidate else []) ++ Script.wrNow now

/-- One pass of the loop of R251: the code of one offset, compared with a candidate of `m` characters; the host leaves the
loop when the `STATUS` it reads shows `MATCH`. -/
def Script.verifyPass (l : Layout) (klen m offs : Word) : List Event :=
  Script.codeFor l klen offs ++ Script.wr .src l.cand ++ Script.wr .len m ++ Script.cmd .totpCmp ++ Script.rd .status

end Sys2Proof.Machine
end

