-- ==== Sys2Proof/Safety.lean ====
section
/-! DEFINITION. The terms in which claims about the block are made: what holds in every state of a run (spec/10_state.md R46,
R30; the canonical form of the scratchpad), whose turn the next step is (spec/44_system.md R270), which errors a command can
raise (spec/60_exceptions.md R291), what `SYS.ZERO` leaves nothing of (R277), what an open stream has absorbed
(spec/40_sha1.md R157, spec/41_hmac.md R186), and the tables of R76 and R92 in the rules' own order. -/

namespace Sys2Proof.Machine

/-- The invariants of R46 and of R30, and the canonical form of the scratchpad. R46 (a) and (e) hold by the types of `VALUE`
and `ST`. -/
structure Inv (s : State) : Prop where
  /-- R46 (b). -/
  codeRange : s.code.toNat ≤ 999999
  /-- R46 (c). -/
  bcdDigits : ∀ k, k < 6 → bcdDigit s.bcd k ≤ 9
  /-- R46 (d). -/
  wholeBytes : s.sha.mlen.toNat % 8 = 0
  /-- R46 (f). -/
  keyErased : s.st ≠ .hmac → s.kblk = zeroBlock
  /-- R46 (g). -/
  idleEmpty : s.st = .idle → s.sha.mlen = 0 ∧ s.sha.buf = zeroBlock
  /-- R46 (h). -/
  noRecord : s.err = false → s.errcode = .noError ∧ s.einfo = 0
  /-- R30: `ERRCODE` is not 0 while `ERR` = 1. -/
  errorCoded : s.err = true → s.errcode ≠ .noError
  /-- R46 (i). -/
  pointerInside : s.maddr.toNat < s.memSize
  /-- R46 (j). -/
  busyNotDone : s.busy = true → s.done = false
  /-- The scratchpad is in canonical form. -/
  memSorted : s.mem.wf
  /-- Only addresses below `MEMSZ` name a byte (R70). -/
  memInside : s.mem.below s.memSize

/-- Two states that differ at most in what R277 calls secret-derived: the scratchpad, the SHA-1 unit, the key block, the
stream, the TOTP registers, `RLEN` and `MATCH`. Everything else is equal. -/
structure SameOutsideSecrets (s t : State) : Prop where
  ieDone : s.ieDone = t.ieDone
  ieErr : s.ieErr = t.ieErr
  busy : s.busy = t.busy
  done : s.done = t.done
  err : s.err = t.err
  errcode : s.errcode = t.errcode
  einfo : s.einfo = t.einfo
  cw : s.cw = t.cw
  src : s.src = t.src
  len : s.len = t.len
  dst : s.dst = t.dst
  keya : s.keya = t.keya
  keyl : s.keyl = t.keyl
  maddr : s.maddr = t.maddr
  now : s.now = t.now
  offs : s.offs = t.offs
  cfg : s.cfg = t.cfg
  agenda : s.agenda = t.agenda
  rdata : s.rdata = t.rdata
  draws : s.draws = t.draws

/-- The sequencer takes the step at `s` (R270, R77): a command is in flight and what the host presents, if anything, is not a
`STATUS` read. `rest` is the agenda afterwards; a held transaction stays at its head. -/
def SeqTurn (s : State) (rest : List Event) : Prop :=
  s.busy = true ∧
    ((s.agenda = [] ∧ rest = []) ∨ s.agenda = .seq :: rest ∨
      (∃ a tl, s.agenda = .read a :: tl ∧ a ≠ 3 ∧ rest = s.agenda) ∨
      (∃ a w tl, s.agenda = .write a w :: tl ∧ rest = s.agenda))

/-- The state after a command has failed with an error other than `E_B32CHAR` (R292, R272): the record, with `CW` as the
detail, and the two lines of every complete step. -/
def failedWith (s : State) (e : ErrCode) : State :=
  { s with err := true, errcode := e, einfo := s.cw, busy := false, done := true }

/-- The column "commands that can raise it" of R291, read by command. -/
def raisable : Instr → List ErrCode
  | .nop | .sysZero | .sha1Init | .totpCtr | .totpMod => []
  | .sha1Update | .sha1Final | .hmacFinal => [.seq, .bounds]
  | .sha1Block | .sha1Hash | .hmacMac | .hmacInit | .totpSer | .totpTrunc | .totpDig | .totpCmp => [.bounds]
  | .b32Enc => [.bounds, .overlap]
  | .b32Dec => [.bounds, .overlap, .b32char]

/-- What the host and the commands of the other units may do between two commands of a stream: anything that leaves the SHA-1
unit, the key block and the stream state alone, and no error is pending (R157, R186). -/
structure SameStream (s t : State) : Prop where
  sha : t.sha = s.sha
  kblk : t.kblk = s.kblk
  st : t.st = s.st
  noError : t.err = false

/-- `s` holds a stream opened by `SHA1.INIT` and fed by successful `SHA1.UPDATE` commands that absorbed `m` (R157). -/
inductive Streamed : State → List Byte → Prop where
  | opened {s t : State} : s.err = false → exec .sha1Init s = .next t → Streamed t []
  | updated {s s' t : State} {m : List Byte} : Streamed s m → SameStream s s' →
      exec .sha1Update s' = .next t → t.err = false →
      Streamed t (m ++ s'.memRead s'.src.toNat s'.len.toNat)

/-- `s` holds a stream opened by a successful `HMAC.INIT` with `key` and fed by successful `SHA1.UPDATE` commands that absorbed
`m` (R186). -/
inductive MacStreamed : State → List Byte → List Byte → Prop where
  | opened {s t : State} : s.err = false → exec .hmacInit s = .next t → t.err = false →
      MacStreamed t (s.memRead s.keya.toNat s.keyl.toNat) []
  | updated {s s' t : State} {key m : List Byte} : MacStreamed s key m → SameStream s s' →
      exec .sha1Update s' = .next t → t.err = false →
      MacStreamed t key (m ++ s'.memRead s'.src.toNat s'.len.toNat)

/-- `m'` is `m` with the byte string `v` written from address `a` on: byte `a + i` is `v[i]`, and every byte outside
`[a, a + |v|)` is as before (R72). -/
def Stored (m : Memory) (a : Nat) (v : List Byte) (m' : Memory) : Prop :=
  ∀ x, m'.get? x = if a ≤ x ∧ x < a + v.length then v[x - a]? else m.get? x

/-- The table of R76 read row by row: the data of a read of word index `a`, for every index but 13 (`MDATA`). -/
def portWord (s : State) (a : Nat) : Word :=
  match a with
  | 0 => 0x46525037
  | 1 => BitVec.ofNat 32 (0x40001E06 + s.cfg.aw * 2 ^ 16)
  | 2 => BitVec.ofNat 32 (s.ieErr.toNat * 2 + s.ieDone.toNat)
  | 3 => BitVec.ofNat 32 (s.errcode.code * 2 ^ 8 + s.st.code * 2 ^ 4 + s.matched.toNat * 8 + s.err.toNat * 4 +
      s.done.toNat * 2 + s.busy.toNat)
  | 5 => s.src
  | 6 => s.len
  | 7 => s.dst
  | 8 => s.keya
  | 9 => s.keyl
  | 10 => s.rlen
  | 11 => s.einfo
  | 12 => BitVec.ofNat 32 s.maddr.toNat
  | 14 => BitVec.ofNat 32 s.now.toNat
  | 15 => BitVec.ofNat 32 (s.now.toNat / 2 ^ 32)
  | 16 => s.offs
  | 17 => BitVec.ofNat 32 s.cnt.toNat
  | 18 => BitVec.ofNat 32 (s.cnt.toNat / 2 ^ 32)
  | 19 => BitVec.ofNat 32 s.value.toNat
  | 20 => BitVec.ofNat 32 s.code.toNat
  | 21 => BitVec.ofNat 32 s.bcd.toNat
  | 22 => s.sha.h[0]
  | 23 => s.sha.h[1]
  | 24 => s.sha.h[2]
  | 25 => s.sha.h[3]
  | 26 => s.sha.h[4]
  | 27 => BitVec.ofNat 32 s.sha.mlen.toNat
  | 28 => BitVec.ofNat 32 (s.sha.mlen.toNat / 2 ^ 32)
  | _ => 0

/-- The column "checked" of R92: the memory operands of a command, base and length, in the order of their checks. -/
def checkedOperands (s : State) : Instr → List (Word × Nat)
  | .nop | .sysZero | .sha1Init | .totpCtr | .totpMod => []
  | .sha1Update => [(s.src, s.len.toNat)]
  | .sha1Final | .hmacFinal => [(s.dst, 20)]
  | .sha1Block => [(s.src, 64)]
  | .sha1Hash => [(s.src, s.len.toNat), (s.dst, 20)]
  | .hmacMac => [(s.keya, s.keyl.toNat), (s.src, s.len.toNat), (s.dst, 20)]
  | .hmacInit => [(s.keya, s.keyl.toNat)]
  | .b32Enc => [(s.src, s.len.toNat), (s.dst, 8 * ((s.len.toNat + 4) / 5))]
  | .b32Dec => [(s.src, s.len.toNat), (s.dst, 5 * s.len.toNat / 8)]
  | .totpSer => [(s.dst, 8)]
  | .totpTrunc => [(s.src, 20)]
  | .totpDig => [(s.dst, 6)]
  | .totpCmp => if s.len = 6 then [(s.src, 6)] else []

/-- The cause of `E_SEQ` (R294): the command needs an open stream of a kind that `ST` does not show. -/
def OutOfSequence (s : State) (i : Instr) : Prop :=
  (i = .sha1Update ∧ s.st = .idle) ∨ (i = .sha1Final ∧ s.st ≠ .sha) ∨ (i = .hmacFinal ∧ s.st ≠ .hmac)

/-- Byte `i` of a text may not stand there (R203, R297): it is neither whitespace nor `=`, and it is outside the alphabet or
follows an `=`. -/
def Offends (t : List Byte) (i : Nat) : Prop :=
  ∃ c, t[i]? = some c ∧ Base32.isSpace c = false ∧ c ≠ 0x3D ∧
    (Base32.charValue c = none ∨ ∃ j, j < i ∧ t[j]? = some 0x3D)

/-- The first `n` steps from `s`, none if one of them stops. -/
def run : Nat → State → Option State
  | 0, s => some s
  | n + 1, s =>
    match step s with
    | .next t => run n t
    | .fault _ => none
    | .refused _ => none

end Sys2Proof.Machine
end

