-- ==== Sys2Proof/Certificates/Slice0/Obligations.lean ====
section
/-! DEFINITION. The statements for the provers, each over all states or all inputs. A result statement says which next state
a command answers: the fields written out are the ones the command writes, `s` keeps every other one, and memory is said
byte by byte. `draws`, `agenda`, `rdata` and `cfg` are the model's own fields (notes/assumptions/1.md to 4.md); a statement that
writes `draws := t.draws` says nothing about how many free values the command drew. -/

open Sys2Proof Sys2Proof.Machine

/-! ### Encoding and the step -/

/-- R120, R123: a word is legal exactly if it encodes a command, and it then decodes to that command and no other. -/
def Obligations.LegalWordsAreTheEncodedCommands : Prop :=
  (∀ (w : Word) (i : Instr), decode w = .ok i ↔ w = encode i) ∧
    (∀ w : Word, legalWord w = true ↔ ∃ i, w = encode i)

/-- R121, some words of each unit written out from the table. -/
def Obligations.TableWordsDecode : Prop :=
  decode 0x00000001 = .ok .sysZero ∧ decode 0x00000012 = .ok .sha1Final ∧ decode 0x00000020 = .ok .hmacMac ∧
    decode 0x00000031 = .ok .b32Dec ∧ decode 0x00000045 = .ok .totpCmp ∧
    decode 0x00000015 = .error .opcodeUndefined ∧ decode 0x00000110 = .error .zeroFieldSet

/-- R270, R272: when it is the sequencer's turn and the accepted word decodes to a command, the step is the complete step of
that command, on the state with the events to come moved on. -/
def Obligations.StepRunsDecodedCommand : Prop :=
  ∀ (s : State) (rest : List Event) (i : Instr), SeqTurn s rest → decode s.cw = .ok i →
    step s = exec i { s with agenda := rest }

/-- A command word that has been fetched is the one the next step runs (R271, R272; the model's form of fetching is
notes/assumptions/6.md). -/
def Obligations.FetchedWordRunsNext : Prop :=
  ∀ (s : State) (nbits w : Nat) (i : Instr), decodeTableWord nbits w = some i →
    step (s.withFetchWord nbits w) =
      exec i { s with cw := BitVec.ofNat 32 (w % 2 ^ nbits), busy := true, done := false }

/-- R293: every one of the 2^32 words outside the table fails with `E_ILLCMD` and records itself. -/
def Obligations.IllegalWordFails : Prop :=
  ∀ (s : State) (rest : List Event), SeqTurn s rest → s.err = false →
    (s.cw.toNat / 2 ^ 8 ≠ 0 ∨
      s.cw.toNat % 2 ^ 8 ∉ [0x00, 0x01, 0x10, 0x11, 0x12, 0x13, 0x14, 0x20, 0x21, 0x22, 0x30, 0x31,
        0x40, 0x41, 0x42, 0x43, 0x44, 0x45]) →
    step s = .next { s with
      err := true, errcode := .illcmd, einfo := s.cw, busy := false, done := true, agenda := rest }

/-- R272: from every state every command completes, clears `BUSY` and sets `DONE`, and the host's side of the model is
untouched. -/
def Obligations.EveryCommandCompletes : Prop :=
  ∀ (i : Instr) (s : State), ∃ t, exec i s = .next t ∧ t.busy = false ∧ t.done = true ∧
    t.cw = s.cw ∧ t.agenda = s.agenda ∧ t.cfg = s.cfg ∧ t.rdata = s.rdata

/-- R273: while `ERR` = 1 every accepted word, legal or not, is discarded. -/
def Obligations.CommandWhileErrorIsDiscarded : Prop :=
  ∀ (s : State) (rest : List Event), SeqTurn s rest → s.err = true →
    step s = .next { s with busy := false, done := true, agenda := rest }

/-! ### Errors -/

/-- R292: a complete step that fails, of a legal or an illegal word, writes the error record, `BUSY` and `DONE` and nothing
else. `agenda` and `draws` are the model's own. -/
def Obligations.FailingCommandIsPrecise : Prop :=
  ∀ (s t : State) (rest : List Event), SeqTurn s rest → s.err = false → step s = .next t → t.err = true →
    t = { s with
      err := true, errcode := t.errcode, einfo := t.einfo, busy := false, done := true, agenda := rest
      draws := t.draws } ∧
    t.errcode ≠ .noError ∧ (t.errcode ≠ .b32char → t.einfo = s.cw)

/-- R291: each command raises only the errors its row names, and the five that cannot fail never do. -/
def Obligations.CommandsRaiseOnlyTheirErrors : Prop :=
  ∀ (i : Instr) (s t : State), s.err = false → exec i s = .next t →
    (t.err = true → t.errcode ∈ raisable i) ∧ (raisable i = [] → t.err = false)

/-- R294: exactly when `E_SEQ` is raised, and by which commands. -/
def Obligations.SequenceErrorExactly : Prop :=
  ∀ (i : Instr) (s : State), s.err = false →
    ∃ t, exec i s = .next t ∧ ((t.err = true ∧ t.errcode = .seq) ↔ OutOfSequence s i) ∧
      (OutOfSequence s i → t = failedWith s .seq)

/-- R295, R299: exactly when `E_BOUNDS` is raised: some operand of R92 is out of bounds, and no `E_SEQ` comes first. -/
def Obligations.BoundsErrorExactly : Prop :=
  ∀ (i : Instr) (s : State), s.err = false → ¬ OutOfSequence s i →
    ∃ t, exec i s = .next t ∧
      ((t.err = true ∧ t.errcode = .bounds) ↔ ∃ o ∈ checkedOperands s i, s.memSize < o.1.toNat + o.2) ∧
      ((∃ o ∈ checkedOperands s i, s.memSize < o.1.toNat + o.2) → t = failedWith s .bounds)

/-! ### What commands leave alone -/

/-- R275: no command writes `CTRL`, an operand register, `MADDR`, `NOW` or `OFFS`; only two write `CNT`. -/
def Obligations.NoCommandWritesOperandRegisters : Prop :=
  ∀ (i : Instr) (s : State), ∃ t, exec i s = .next t ∧
    t.ieDone = s.ieDone ∧ t.ieErr = s.ieErr ∧ t.src = s.src ∧ t.len = s.len ∧ t.dst = s.dst ∧
    t.keya = s.keya ∧ t.keyl = s.keyl ∧ t.maddr = s.maddr ∧ t.now = s.now ∧ t.offs = s.offs ∧
    (i ≠ .totpCtr → i ≠ .sysZero → t.cnt = s.cnt)

/-- R24, R26, R33: each result element is written by the commands of its row and by no other. -/
def Obligations.OnlyItsCommandsWriteAnElement : Prop :=
  ∀ (i : Instr) (s t : State), exec i s = .next t → i ≠ .sysZero →
    (i ≠ .totpTrunc → t.value = s.value) ∧ (i ≠ .totpMod → t.code = s.code) ∧ (i ≠ .totpDig → t.bcd = s.bcd) ∧
    (i ≠ .totpCmp → t.matched = s.matched) ∧
    (i ∈ [.nop, .b32Enc, .b32Dec, .totpCtr, .totpSer, .totpTrunc, .totpMod, .totpDig, .totpCmp] →
      t.sha = s.sha ∧ t.kblk = s.kblk ∧ t.st = s.st) ∧
    (i ∈ [.nop, .sha1Init, .sha1Update, .sha1Block, .hmacInit, .totpCtr, .totpTrunc, .totpMod, .totpCmp] →
      t.mem = s.mem ∧ t.rlen = s.rlen)

/-! ### Reset, invariants -/

/-- The reset state meets the invariants of R46, for every `MEMSZ`. -/
def Obligations.ResetStateHasTheInvariants : Prop := Inv State.reset ∧ ∀ c : Config, Inv (State.resetOf c)

/-- R46: every step keeps the invariants, whatever comes next on the port. -/
def Obligations.StepKeepsTheInvariants : Prop := ∀ s t : State, Inv s → step s = .next t → Inv t

/-- R331: a reset gives the reset state whatever came before, a command in flight included. `agenda`, `rdata`, `draws` and
`cfg` are the model's own, and nothing is said of the two that are written `t.rdata` and `t.draws`. -/
def Obligations.ResetEventGivesResetState : Prop :=
  ∀ (s : State) (rest : List Event), s.agenda = .reset :: rest →
    ∃ t, step s = .next t ∧
      t = { ieDone := false, ieErr := false, busy := false, done := false, err := false, matched := false,
            st := .idle, errcode := .noError, einfo := 0, cw := 0, src := 0, len := 0, dst := 0, keya := 0,
            keyl := 0, rlen := 0, maddr := 0, now := 0, offs := 0, cnt := 0, value := 0, code := 0, bcd := 0,
            sha := ⟨Vector.replicate 5 0, 0, Vector.replicate 64 0, ⟨Vector.replicate 80 0, ⟨0, 0, 0, 0, 0⟩, 0⟩⟩,
            kblk := Vector.replicate 64 0, mem := t.mem, cfg := s.cfg, agenda := rest, rdata := t.rdata,
            draws := t.draws } ∧
      (∀ a, t.mem.get? a = none) ∧ t.readData .id = 0x46525037 ∧
      t.readData .param = BitVec.ofNat 32 (0x40001E06 + s.cfg.aw * 2 ^ 16) ∧ t.irq = false ∧ (∀ a, t.readReady a = true) ∧ t.writeReady = true

/-! ### The host port -/

/-- R77: while a command is in flight a `STATUS` read completes, and anything else is held until the complete step, which it
does not hinder. -/
def Obligations.PortInterlock : Prop :=
  (∀ s : State, (∀ a, s.readReady a = false ↔ s.busy = true ∧ a ≠ 3) ∧ (s.writeReady = false ↔ s.busy = true)) ∧
  (∀ (s : State) (rest : List Event), s.busy = true → s.agenda = .read 3 :: rest →
    step s = .next { s with agenda := rest, rdata := some s.statusWord }) ∧
  (∀ (s : State) (e : Event) (rest : List Event), s.busy = true → s.agenda = e :: rest →
    ((∃ a, e = .read a ∧ a ≠ 3) ∨ ∃ a w, e = .write a w) →
    ∃ t, step s = .next t ∧ t.agenda = s.agenda ∧ t.busy = false ∧ t.done = true)

/-- R30: the fields of `STATUS` at their bits, the reserved bits 0. -/
def Obligations.StatusWordFields : Prop :=
  ∀ s : State, s.statusWord.getLsbD 0 = s.busy ∧ s.statusWord.getLsbD 1 = s.done ∧
    s.statusWord.getLsbD 2 = s.err ∧ s.statusWord.getLsbD 3 = s.matched ∧
    (s.statusWord.extractLsb' 4 2).toNat = s.st.code ∧ s.statusWord.extractLsb' 6 2 = 0 ∧
    (s.statusWord.extractLsb' 8 4).toNat = s.errcode.code ∧ s.statusWord.extractLsb' 12 20 = 0 ∧
    s.st.code < 3 ∧ s.errcode.code < 6

/-- R76: the data of a completed read at every index, and the one side effect, that of `MDATA`. `draws` is the model's own. -/
def Obligations.PortReadReturnsRegister : Prop :=
  ∀ (s : State) (a : BitVec 6) (rest : List Event), s.busy = false → s.agenda = .read a :: rest →
    (a ≠ 13 → step s = .next { s with agenda := rest, rdata := some (portWord s a.toNat) }) ∧
    (a = 13 → ∃ t x, step s = .next t ∧
      t = { s with agenda := rest, rdata := some (BitVec.ofNat 32 x.toNat), maddr := t.maddr, draws := t.draws } ∧
      t.maddr.toNat = (s.maddr.toNat + 1) % s.memSize ∧
      (∀ y, s.mem.get? s.maddr.toNat = some y → x = (y : Byte)))

/-- R78: the effect of a completed write at every index. -/
def Obligations.PortWriteStoresRegister : Prop :=
  ∀ (s : State) (a : BitVec 6) (w : Word) (rest : List Event), s.busy = false → s.agenda = .write a w :: rest →
    ∃ t, step s = .next t ∧
      (a = 2 → t = { s with agenda := rest, ieDone := w.getLsbD 0, ieErr := w.getLsbD 1 }) ∧
      (a = 3 → t = { s with
        agenda := rest
        done := if w.getLsbD 1 then false else s.done
        err := if w.getLsbD 2 then false else s.err
        errcode := if w.getLsbD 2 then .noError else s.errcode
        einfo := if w.getLsbD 2 then 0 else s.einfo }) ∧
      (a = 4 → t = { s with agenda := rest, cw := w, busy := true, done := false }) ∧
      (a = 5 → t = { s with agenda := rest, src := w }) ∧
      (a = 6 → t = { s with agenda := rest, len := w }) ∧
      (a = 7 → t = { s with agenda := rest, dst := w }) ∧
      (a = 8 → t = { s with agenda := rest, keya := w }) ∧
      (a = 9 → t = { s with agenda := rest, keyl := w }) ∧
      (a = 12 → t = { s with agenda := rest, maddr := t.maddr } ∧ t.maddr.toNat = w.toNat % 2 ^ s.cfg.aw) ∧
      (a = 13 → t = { s with agenda := rest, maddr := t.maddr, mem := t.mem } ∧
        t.maddr.toNat = (s.maddr.toNat + 1) % s.memSize ∧
        Stored s.mem s.maddr.toNat [w.extractLsb' 0 8] t.mem) ∧
      (a = 14 → t = { s with agenda := rest, now := t.now } ∧
        t.now.toNat = s.now.toNat / 2 ^ 32 * 2 ^ 32 + w.toNat) ∧
      (a = 15 → t = { s with agenda := rest, now := t.now } ∧
        t.now.toNat = w.toNat * 2 ^ 32 + s.now.toNat % 2 ^ 32) ∧
      (a = 16 → t = { s with agenda := rest, offs := w }) ∧
      (a = 17 → t = { s with agenda := rest, cnt := t.cnt } ∧
        t.cnt.toNat = s.cnt.toNat / 2 ^ 32 * 2 ^ 32 + w.toNat) ∧
      (a = 18 → t = { s with agenda := rest, cnt := t.cnt } ∧
        t.cnt.toNat = w.toNat * 2 ^ 32 + s.cnt.toNat % 2 ^ 32) ∧
      (a.toNat ∈ [0, 1, 10, 11] ∨ 19 ≤ a.toNat → t = { s with agenda := rest })

/-- R271: the accept step latches the word, sets `BUSY`, clears `DONE`, checks nothing and changes nothing else. -/
def Obligations.AcceptStepLatchesTheWord : Prop :=
  ∀ (s : State) (w : Word) (rest : List Event), s.busy = false → s.agenda = .write 4 w :: rest →
    step s = .next { s with agenda := rest, cw := w, busy := true, done := false }

/-- R301: acknowledging clears the record, and a command accepted after it runs normally: with the record cleared the next
command's complete step is that of a state without an error. -/
def Obligations.AcknowledgedErrorIsGone : Prop :=
  ∀ (s : State) (w cmd : Word) (rest : List Event), s.busy = false → w.getLsbD 2 = true →
    s.agenda = .write 3 w :: .write 4 cmd :: .seq :: rest →
    ∃ t u, step s = .next t ∧ t.err = false ∧ t.errcode = .noError ∧ t.einfo = 0 ∧
      (w.getLsbD 1 = true → t.done = false) ∧ step t = .next u ∧
      ∀ i, decode cmd = .ok i → step u = exec i { s with
        done := false, err := false, errcode := .noError, einfo := 0, cw := cmd, busy := true, agenda := rest }

/-- R302, R303: the interrupt output, and its value while a command is in flight. -/
def Obligations.IrqFollowsFlagsAndEnables : Prop :=
  (∀ s : State, s.irq = true ↔ (s.done = true ∧ s.ieDone = true) ∨ (s.err = true ∧ s.ieErr = true)) ∧
  (∀ (s : State) (w : Word) (rest : List Event), s.busy = false → s.agenda = .write 4 w :: rest →
    ∃ t, step s = .next t ∧ (t.irq = true ↔ s.err = true ∧ s.ieErr = true))

/-- R274, R350: how often the host polls `STATUS` before the complete step changes nothing but the last data read. -/
def Obligations.PollingDoesNotChangeTheOutcome : Prop :=
  ∀ (n : Nat) (s : State) (rest : List Event), s.busy = true →
    s.agenda = List.replicate n (.read 3) ++ .seq :: rest →
    ∃ t, seqStep { s with agenda := rest } = .next t ∧
      run (n + 1) s = some { t with rdata := if n = 0 then s.rdata else some s.statusWord }

/-! ### System commands -/

/-- R276. -/
def Obligations.NopOnlyCompletes : Prop :=
  encode .nop = 0x00000000 ∧ ∀ s : State, exec .nop s = .next { s with busy := false, done := true }

/-- R277, R21, R275: `SYS.ZERO` zeroises the scratchpad and everything derived from a secret. That `CW` is among what it
leaves is the model's reading (DEDUCED, notes/assumptions/11.md): R277 names `CW` neither among what is written nor among
what is left. -/
def Obligations.SysZeroErases : Prop :=
  encode .sysZero = 0x00000001 ∧ ∀ s : State, s.err = false →
    ∃ t, exec .sysZero s = .next t ∧
      t = { s with
        mem := t.mem
        sha := ⟨Vector.replicate 5 0, 0, Vector.replicate 64 0, ⟨Vector.replicate 80 0, ⟨0, 0, 0, 0, 0⟩, 0⟩⟩
        kblk := Vector.replicate 64 0, st := .idle, cnt := 0, value := 0, code := 0, bcd := 0, rlen := 0
        matched := false, busy := false, done := true } ∧
      ∀ a, t.mem.get? a = if a < s.memSize then some 0 else none

/-- R277, R253: after `SYS.ZERO` nothing tells two states apart that differed in secret-derived state only. -/
def Obligations.SysZeroForgetsSecrets : Prop :=
  ∀ s t : State, SameOutsideSecrets s t → s.err = false →
    ∃ u, exec .sysZero s = .next u ∧ exec .sysZero t = .next u

/-! ### SHA-1 -/

/-- R149. -/
def Obligations.Sha1InitOpensStream : Prop :=
  encode .sha1Init = 0x00000010 ∧ ∀ s : State, s.err = false →
    exec .sha1Init s = .next { s with
      sha := { s.sha with
        h := #v[0x67452301, 0xEFCDAB89, 0x98BADCFE, 0x10325476, 0xC3D2E1F0], mlen := 0
        buf := Vector.replicate 64 0 }
      kblk := Vector.replicate 64 0, st := .sha, busy := false, done := true }

/-- R150: the two failures in their order, else the `LEN` bytes at `SRC` are absorbed. -/
def Obligations.Sha1UpdateAbsorbs : Prop :=
  encode .sha1Update = 0x00000011 ∧ ∀ s : State, s.err = false →
    (s.st = .idle → exec .sha1Update s = .next (failedWith s .seq)) ∧
    (s.st ≠ .idle → s.memSize < s.src.toNat + s.len.toNat →
      exec .sha1Update s = .next (failedWith s .bounds)) ∧
    (s.st ≠ .idle → s.src.toNat + s.len.toNat ≤ s.memSize →
      ∃ t, exec .sha1Update s = .next t ∧ t = { s with
        sha := s.sha.absorb (s.memRead s.src.toNat s.len.toNat), busy := false, done := true, draws := t.draws })

/-- R154: absorbing is byte by byte; a byte goes to `BUF[MLEN[8:3]]` and the 64th byte of a block compresses it. -/
def Obligations.AbsorbIsByteByByte : Prop :=
  (∀ (u : Sha1Unit) (xs ys : List Byte), u.absorb [] = u ∧ u.absorb (xs ++ ys) = (u.absorb xs).absorb ys) ∧
  (∀ (u : Sha1Unit) (x : Byte) (n : Nat) (hn : n < 64), n = u.mlen.toNat / 8 % 64 →
    (n < 63 → u.absorb [x] = { u with buf := u.buf.set n x, mlen := u.mlen + 8 }) ∧
    (n = 63 → u.absorb [x] = { u with
      h := Sha1.compress u.h (u.buf.set n x).toList, buf := u.buf.set n x, mlen := u.mlen + 8
      work := (u.absorb [x]).work }))

/-- R155: `Finish` pads, compresses one or two blocks, and leaves `MLEN` and `BUF`. -/
def Obligations.FinishPadsAndCompresses : Prop :=
  ∀ u : Sha1Unit,
    u.finish.mlen = u.mlen ∧ u.finish.buf = u.buf ∧
    (u.mlen.toNat / 8 % 64 ≤ 55 → u.finish.h =
      Sha1.compress u.h (u.buf.toList.take (u.mlen.toNat / 8 % 64) ++ [0x80] ++
        List.replicate (55 - u.mlen.toNat / 8 % 64) 0 ++ be64 u.mlen)) ∧
    (56 ≤ u.mlen.toNat / 8 % 64 → u.finish.h =
      Sha1.compress
        (Sha1.compress u.h (u.buf.toList.take (u.mlen.toNat / 8 % 64) ++ [0x80] ++
          List.replicate (63 - u.mlen.toNat / 8 % 64) 0))
        (List.replicate 56 0 ++ be64 u.mlen))

/-- R151. -/
def Obligations.Sha1FinalDelivers : Prop :=
  encode .sha1Final = 0x00000012 ∧ ∀ s : State, s.err = false →
    (s.st ≠ .sha → exec .sha1Final s = .next (failedWith s .seq)) ∧
    (s.st = .sha → s.memSize < s.dst.toNat + 20 → exec .sha1Final s = .next (failedWith s .bounds)) ∧
    (s.st = .sha → s.dst.toNat + 20 ≤ s.memSize →
      ∃ t, exec .sha1Final s = .next t ∧
        t = { s with
          sha := ⟨s.sha.finish.h, 0, Vector.replicate 64 0, t.sha.work⟩, st := .idle, rlen := 20, mem := t.mem
          busy := false, done := true } ∧
        Stored s.mem s.dst.toNat (Sha1.digest s.sha.finish.h) t.mem)

/-- R152. -/
def Obligations.Sha1BlockCompresses : Prop :=
  encode .sha1Block = 0x00000013 ∧ ∀ s : State, s.err = false →
    (s.memSize < s.src.toNat + 64 → exec .sha1Block s = .next (failedWith s .bounds)) ∧
    (s.src.toNat + 64 ≤ s.memSize →
      ∃ t, exec .sha1Block s = .next t ∧
        t = { s with
          sha := { s.sha with h := Sha1.compress s.sha.h (s.memRead s.src.toNat 64), work := t.sha.work }
          busy := false, done := true, draws := t.draws })

/-- R153. -/
def Obligations.Sha1HashDelivers : Prop :=
  encode .sha1Hash = 0x00000014 ∧ ∀ s : State, s.err = false →
    (s.memSize < s.src.toNat + s.len.toNat ∨ s.memSize < s.dst.toNat + 20 →
      exec .sha1Hash s = .next (failedWith s .bounds)) ∧
    (s.src.toNat + s.len.toNat ≤ s.memSize → s.dst.toNat + 20 ≤ s.memSize →
      ∃ t, exec .sha1Hash s = .next t ∧
        t = { s with
          sha := ⟨t.sha.h, 0, Vector.replicate 64 0, t.sha.work⟩, kblk := Vector.replicate 64 0, st := .idle
          rlen := 20, mem := t.mem, busy := false, done := true, draws := t.draws } ∧
        Sha1.digest t.sha.h = Sha1.hash (s.memRead s.src.toNat s.len.toNat) ∧
        Stored s.mem s.dst.toNat (Sha1.hash (s.memRead s.src.toNat s.len.toNat)) t.mem)

/-- R144, R143: the 80 words of the schedule. -/
def Obligations.ScheduleFollowsRecurrence : Prop :=
  ∀ blk : List Byte, blk.length = 64 →
    (Sha1.schedule blk).length = 80 ∧
    (∀ j, j < 16 → (Sha1.schedule blk).getD j 0 = BitVec.ofNat 32
      ((blk.getD (4 * j) 0).toNat * 2 ^ 24 + (blk.getD (4 * j + 1) 0).toNat * 2 ^ 16 +
        (blk.getD (4 * j + 2) 0).toNat * 2 ^ 8 + (blk.getD (4 * j + 3) 0).toNat)) ∧
    (∀ j, 16 ≤ j → j < 80 → (Sha1.schedule blk).getD j 0 =
      ((Sha1.schedule blk).getD (j - 3) 0 ^^^ (Sha1.schedule blk).getD (j - 8) 0 ^^^
        (Sha1.schedule blk).getD (j - 14) 0 ^^^ (Sha1.schedule blk).getD (j - 16) 0).rotateLeft 1)

/-- R147, with the round of R146 and the function and constant of R145: a block is compressed by 80 rounds from the chaining
value, which is added back at the end. -/
def Obligations.CompressRunsEightyRounds : Prop :=
  ∀ (h : Vector Word 5) (blk : List Byte), ∃ v : Nat → Working, v 0 = ⟨h[0], h[1], h[2], h[3], h[4]⟩ ∧
    (∀ t, t < 80 → ∃ f k : Word,
      (t < 20 → f = ((v t).b &&& (v t).c) ||| (~~~(v t).b &&& (v t).d) ∧ k = 0x5A827999) ∧
      (20 ≤ t → t < 40 → f = (v t).b ^^^ (v t).c ^^^ (v t).d ∧ k = 0x6ED9EBA1) ∧
      (40 ≤ t → t < 60 →
        f = ((v t).b &&& (v t).c) ||| ((v t).b &&& (v t).d) ||| ((v t).c &&& (v t).d) ∧ k = 0x8F1BBCDC) ∧
      (60 ≤ t → f = (v t).b ^^^ (v t).c ^^^ (v t).d ∧ k = 0xCA62C1D6) ∧
      v (t + 1) = ⟨(v t).a.rotateLeft 5 + f + (v t).e + k + (Sha1.schedule blk).getD t 0, (v t).a,
        (v t).b.rotateLeft 30, (v t).c, (v t).d⟩) ∧
    Sha1.compress h blk =
      #v[h[0] + (v 80).a, h[1] + (v 80).b, h[2] + (v 80).c, h[3] + (v 80).d, h[4] + (v 80).e]

/-- R102: the padded message of every length. -/
def Obligations.PaddedMessageLayout : Prop :=
  ∀ m : List Byte, ∃ k, k < 64 ∧ (m.length + 1 + k) % 64 = 56 ∧ (Sha1.padded m).length % 64 = 0 ∧
    ∃ field : List Byte, Sha1.padded m = m ++ [0x80] ++ List.replicate k 0 ++ field ∧ field.length = 8 ∧
      ∀ j, j < 8 → field.getD j 0 = BitVec.ofNat 8 (8 * m.length % 2 ^ 64 / 2 ^ (8 * (7 - j)))

/-- R157: a stream delivers the hash of the concatenation of what it absorbed, whatever the split. -/
def Obligations.StreamDeliversHashOfWholeMessage : Prop :=
  ∀ (s s' : State) (m : List Byte), Streamed s m → SameStream s s' → m.length < 2 ^ 61 →
    s'.dst.toNat + 20 ≤ s'.memSize →
    ∃ t, exec .sha1Final s' = .next t ∧ t.err = false ∧ Stored s'.mem s'.dst.toNat (Sha1.hash m) t.mem

/-- R153, its last sentence on the effect: the one-shot command ends in exactly the state of the three stream commands.
The equality takes in the working storage and the count of free values, which are the model's reading and the model's own
(notes/assumptions/5.md, 2.md). -/
def Obligations.HashEqualsInitUpdateFinal : Prop :=
  ∀ s : State, s.err = false → s.src.toNat + s.len.toNat ≤ s.memSize → s.dst.toNat + 20 ≤ s.memSize →
    ∃ a b c, exec .sha1Init s = .next a ∧ exec .sha1Update a = .next b ∧ exec .sha1Final b = .next c ∧
      exec .sha1Hash s = .next c

/-! ### HMAC -/

/-- R181: the key block of every key; the comparison with 64 is strict. -/
def Obligations.KeyBlockShape : Prop :=
  ∀ key : List Byte,
    (key.length ≤ 64 → Hmac.keyBlock key = key ++ List.replicate (64 - key.length) 0) ∧
    (64 < key.length → Hmac.keyBlock key = Sha1.hash key ++ List.replicate 44 0) ∧
    (Hmac.keyBlock key).length = 64

/-- R182: the MAC is the nested hash under the two pads. -/
def Obligations.MacIsTheNestedHash : Prop :=
  ∀ key message : List Byte, ∃ ip op : List Byte, ip.length = 64 ∧ op.length = 64 ∧
    (∀ i, i < 64 → ip.getD i 0 = (Hmac.keyBlock key).getD i 0 ^^^ 0x36 ∧
      op.getD i 0 = (Hmac.keyBlock key).getD i 0 ^^^ 0x5c) ∧
    Hmac.mac key message = Sha1.hash (op ++ Sha1.hash (ip ++ message))

/-- R183: key and message are read before anything is written. `later`: a byte that has not been written since the last
reset need not read twice as the same value (R74), and the message is read after the key. -/
def Obligations.HmacMacDelivers : Prop :=
  encode .hmacMac = 0x00000020 ∧ ∀ s : State, s.err = false →
    (s.memSize < s.keya.toNat + s.keyl.toNat ∨ s.memSize < s.src.toNat + s.len.toNat ∨
      s.memSize < s.dst.toNat + 20 → exec .hmacMac s = .next (failedWith s .bounds)) ∧
    (s.keya.toNat + s.keyl.toNat ≤ s.memSize → s.src.toNat + s.len.toNat ≤ s.memSize →
      s.dst.toNat + 20 ≤ s.memSize →
      ∃ t mac later, exec .hmacMac s = .next t ∧
        mac = Hmac.mac (s.memRead s.keya.toNat s.keyl.toNat)
          ({ s with draws := later }.memRead s.src.toNat s.len.toNat) ∧
        t = { s with
          sha := ⟨t.sha.h, 0, Vector.replicate 64 0, t.sha.work⟩, kblk := Vector.replicate 64 0, st := .idle
          rlen := 20, mem := t.mem, busy := false, done := true, draws := t.draws } ∧
        Sha1.digest t.sha.h = mac ∧ Stored s.mem s.dst.toNat mac t.mem)

/-- R184. -/
def Obligations.HmacInitOpensStream : Prop :=
  encode .hmacInit = 0x00000021 ∧ ∀ s : State, s.err = false →
    (s.memSize < s.keya.toNat + s.keyl.toNat → exec .hmacInit s = .next (failedWith s .bounds)) ∧
    (s.keya.toNat + s.keyl.toNat ≤ s.memSize →
      ∃ t kb, exec .hmacInit s = .next t ∧ kb = Hmac.keyBlock (s.memRead s.keya.toNat s.keyl.toNat) ∧
        t = { s with
          sha := { s.sha with h := Sha1.iv, mlen := 0, buf := Vector.replicate 64 0 }.absorb
            (kb.map (· ^^^ 0x36))
          kblk := t.kblk, st := .hmac, busy := false, done := true, draws := t.draws } ∧
        t.kblk.toList = kb ∧ t.sha.mlen = 512 ∧ t.sha.h = Sha1.compress Sha1.iv (kb.map (· ^^^ 0x36)))

/-- R185. -/
def Obligations.HmacFinalDelivers : Prop :=
  encode .hmacFinal = 0x00000022 ∧ ∀ s : State, s.err = false →
    (s.st ≠ .hmac → exec .hmacFinal s = .next (failedWith s .seq)) ∧
    (s.st = .hmac → s.memSize < s.dst.toNat + 20 → exec .hmacFinal s = .next (failedWith s .bounds)) ∧
    (s.st = .hmac → s.dst.toNat + 20 ≤ s.memSize →
      ∃ (t : State) (outer : Sha1Unit), exec .hmacFinal s = .next t ∧
        outer = (({ s.sha.finish with h := Sha1.iv, mlen := 0 }.absorb
          (s.kblk.toList.map (· ^^^ 0x5c))).absorb (Sha1.digest s.sha.finish.h)).finish ∧
        t = { s with
          sha := ⟨outer.h, 0, Vector.replicate 64 0, t.sha.work⟩, kblk := Vector.replicate 64 0, st := .idle
          rlen := 20, mem := t.mem, busy := false, done := true } ∧
        Stored s.mem s.dst.toNat (Sha1.digest outer.h) t.mem)

/-- R186: an HMAC stream delivers the MAC of the concatenation of what it absorbed. -/
def Obligations.HmacStreamDeliversMac : Prop :=
  ∀ (s s' : State) (key m : List Byte), MacStreamed s key m → SameStream s s' → 64 + m.length < 2 ^ 61 →
    s'.dst.toNat + 20 ≤ s'.memSize →
    ∃ t, exec .hmacFinal s' = .next t ∧ t.err = false ∧ Stored s'.mem s'.dst.toNat (Hmac.mac key m) t.mem

/-- R183, its sentence on the end state: the one-shot command ends in exactly the state of the three stream commands.
The equality takes in the working storage and the count of free values, which are the model's reading and the model's own
(notes/assumptions/5.md, 2.md). -/
def Obligations.HmacMacEqualsInitUpdateFinal : Prop :=
  ∀ s : State, s.err = false → s.keya.toNat + s.keyl.toNat ≤ s.memSize →
    s.src.toNat + s.len.toNat ≤ s.memSize → s.dst.toNat + 20 ≤ s.memSize →
    ∃ a b c, exec .hmacInit s = .next a ∧ exec .sha1Update a = .next b ∧ exec .hmacFinal b = .next c ∧
      exec .hmacMac s = .next c

/-! ### Base32 -/

/-- R202: every character of the text, and its length. -/
def Obligations.EncoderFollowsItsRule : Prop :=
  ∀ x : List Byte, (Base32.enc x).length = 8 * ((x.length + 4) / 5) ∧
    ∀ j, j < 8 * ((x.length + 4) / 5) →
      (j < (8 * x.length + 4) / 5 → ∃ v, v = bitsToNat (((bitString x ++
          List.replicate ((5 - 8 * x.length % 5) % 5) false).drop (5 * j)).take 5) ∧ v < 32 ∧
        (Base32.enc x).getD j 0 = BitVec.ofNat 8 (if v ≤ 25 then 0x41 + v else 0x32 + (v - 26))) ∧
      ((8 * x.length + 4) / 5 ≤ j → (Base32.enc x).getD j 0 = 0x3D)

/-- R204: decoding an encoded byte string gives it back. -/
def Obligations.DecodeOfEncodeIsIdentity : Prop := ∀ x : List Byte, Base32.dec (Base32.enc x) = .ok x

/-- R203: the decoder reports the first byte that may not stand where it stands; with none it gives the whole bytes of the
accepted characters' values in order. -/
def Obligations.DecoderFollowsItsRule : Prop :=
  ∀ t : List Byte,
    (∀ i, Base32.dec t = .error i ↔ Offends t i ∧ ∀ j, j < i → ¬ Offends t j) ∧
    ((∀ j, ¬ Offends t j) → ∃ y vs, Base32.dec t = .ok y ∧
      vs = (t.filter fun c => !Base32.isSpace c && c != 0x3D).filterMap Base32.charValue ∧
      y.length = 5 * vs.length / 8 ∧
      ∀ j, j < y.length → y.getD j 0 =
        BitVec.ofNat 8 (bitsToNat (((vs.flatMap fun v => msbBits v 5).drop (8 * j)).take 8)))

/-- R205: whitespace anywhere, the case of a letter and trailing `=` do not change what a text decodes to. -/
def Obligations.DecoderIgnoresWhitespaceAndCase : Prop :=
  (∀ (pre post : List Byte) (w : Byte), Base32.isSpace w = true →
    (Base32.dec (pre ++ w :: post)).toOption = (Base32.dec (pre ++ post)).toOption) ∧
  (∀ (pre post : List Byte) (c : Byte), 0x41 ≤ c.toNat → c.toNat ≤ 0x5A →
    Base32.dec (pre ++ (c + 0x20) :: post) = Base32.dec (pre ++ c :: post)) ∧
  (∀ t : List Byte, (Base32.dec (t ++ [0x3D])).toOption = (Base32.dec t).toOption)

/-- R206. -/
def Obligations.B32EncWritesText : Prop :=
  encode .b32Enc = 0x00000030 ∧ ∀ (s : State) (n : Nat), s.err = false → n = 8 * ((s.len.toNat + 4) / 5) →
    (s.memSize < s.src.toNat + s.len.toNat ∨ s.memSize < s.dst.toNat + n →
      exec .b32Enc s = .next (failedWith s .bounds)) ∧
    (s.src.toNat + s.len.toNat ≤ s.memSize → s.dst.toNat + n ≤ s.memSize →
      overlap s.src.toNat s.len.toNat s.dst.toNat n = true → exec .b32Enc s = .next (failedWith s .overlap)) ∧
    (s.src.toNat + s.len.toNat ≤ s.memSize → s.dst.toNat + n ≤ s.memSize →
      overlap s.src.toNat s.len.toNat s.dst.toNat n = false →
      ∃ t, exec .b32Enc s = .next t ∧
        t = { s with
          mem := t.mem, rlen := t.rlen, busy := false, done := true, draws := t.draws } ∧
        t.rlen.toNat = n ∧ Stored s.mem s.dst.toNat (Base32.enc (s.memRead s.src.toNat s.len.toNat)) t.mem)

/-- R207: the failures in their order, the error detail of a bad character, else the decoded bytes and no others. -/
def Obligations.B32DecWritesBytes : Prop :=
  encode .b32Dec = 0x00000031 ∧ ∀ (s : State) (cap : Nat), s.err = false → cap = 5 * s.len.toNat / 8 →
    (s.memSize < s.src.toNat + s.len.toNat ∨ s.memSize < s.dst.toNat + cap →
      exec .b32Dec s = .next (failedWith s .bounds)) ∧
    (s.src.toNat + s.len.toNat ≤ s.memSize → s.dst.toNat + cap ≤ s.memSize →
      (overlap s.src.toNat s.len.toNat s.dst.toNat cap = true →
        exec .b32Dec s = .next (failedWith s .overlap)) ∧
      (overlap s.src.toNat s.len.toNat s.dst.toNat cap = false →
        (∀ i, Base32.dec (s.memRead s.src.toNat s.len.toNat) = .error i →
          i < s.len.toNat ∧ ∃ t, exec .b32Dec s = .next t ∧
            t = { s with
              err := true, errcode := .b32char, einfo := t.einfo, busy := false, done := true
              draws := t.draws } ∧
            t.einfo.toNat = i) ∧
        (∀ y, Base32.dec (s.memRead s.src.toNat s.len.toNat) = .ok y →
          y.length ≤ cap ∧ ∃ t, exec .b32Dec s = .next t ∧
            t = { s with
              mem := t.mem, rlen := t.rlen, busy := false, done := true, draws := t.draws } ∧
            t.rlen.toNat = y.length ∧ Stored s.mem s.dst.toNat y t.mem)))

/-! ### TOTP -/

/-- R235, over the integers. -/
def Obligations.TotpCtrDerivesCounter : Prop :=
  encode .totpCtr = 0x00000040 ∧ ∀ s : State, s.err = false →
    ∃ t, exec .totpCtr s = .next t ∧ t = { s with cnt := t.cnt, busy := false, done := true } ∧
      (t.cnt.toNat : Int) = ((s.now.toNat / 30 : Nat) + s.offs.toInt) % 2 ^ 64

/-- R236. -/
def Obligations.TotpSerSerialises : Prop :=
  encode .totpSer = 0x00000041 ∧ ∀ s : State, s.err = false →
    (s.memSize < s.dst.toNat + 8 → exec .totpSer s = .next (failedWith s .bounds)) ∧
    (s.dst.toNat + 8 ≤ s.memSize →
      ∃ t, exec .totpSer s = .next t ∧ t = { s with mem := t.mem, rlen := 8, busy := false, done := true } ∧
        (∀ j, j < 8 → t.mem.get? (s.dst.toNat + j) = some (BitVec.ofNat 8 (s.cnt.toNat / 2 ^ (56 - 8 * j)))) ∧
        ∀ a, a < s.dst.toNat ∨ s.dst.toNat + 8 ≤ a → t.mem.get? a = s.mem.get? a)

/-- R237, R232. -/
def Obligations.TotpTruncTakesWindow : Prop :=
  encode .totpTrunc = 0x00000042 ∧ ∀ (s : State) (d : List Byte) (o : Nat), s.err = false →
    d = s.memRead s.src.toNat 20 → o = (d.getD 19 0).toNat % 16 →
    (s.memSize < s.src.toNat + 20 → exec .totpTrunc s = .next (failedWith s .bounds)) ∧
    (s.src.toNat + 20 ≤ s.memSize →
      ∃ t, exec .totpTrunc s = .next t ∧
        t = { s with value := t.value, busy := false, done := true, draws := t.draws } ∧
        t.value.toNat = (d.getD o 0).toNat % 128 * 2 ^ 24 + (d.getD (o + 1) 0).toNat * 2 ^ 16 +
          (d.getD (o + 2) 0).toNat * 2 ^ 8 + (d.getD (o + 3) 0).toNat)

/-- R238. -/
def Obligations.TotpModReduces : Prop :=
  encode .totpMod = 0x00000043 ∧ ∀ s : State, s.err = false →
    ∃ t, exec .totpMod s = .next t ∧ t = { s with code := t.code, busy := false, done := true } ∧
      t.code.toNat = s.value.toNat % 1000000

/-- R239, R42: the digits in `BCD`, and the six characters in `MEM`, the leading digit first. -/
def Obligations.TotpDigExtracts : Prop :=
  encode .totpDig = 0x00000044 ∧ ∀ s : State, s.err = false →
    (s.memSize < s.dst.toNat + 6 → exec .totpDig s = .next (failedWith s .bounds)) ∧
    (s.dst.toNat + 6 ≤ s.memSize →
      ∃ t, exec .totpDig s = .next t ∧
        t = { s with mem := t.mem, bcd := t.bcd, rlen := 6, busy := false, done := true } ∧
        (∀ k, k < 6 → bcdDigit t.bcd k = s.code.toNat / 10 ^ k % 10) ∧
        (∀ j, j < 6 → t.mem.get? (s.dst.toNat + j) =
          some (BitVec.ofNat 8 (0x30 + s.code.toNat / 10 ^ (5 - j) % 10))) ∧
        ∀ a, a < s.dst.toNat ∨ s.dst.toNat + 6 ≤ a → t.mem.get? a = s.mem.get? a)

/-- R240: `MATCH`, and nothing else, for every candidate. -/
def Obligations.TotpCmpCompares : Prop :=
  encode .totpCmp = 0x00000045 ∧ ∀ s : State, s.err = false →
    (s.len ≠ 6 → exec .totpCmp s = .next { s with matched := false, busy := false, done := true }) ∧
    (s.len = 6 → s.memSize < s.src.toNat + 6 → exec .totpCmp s = .next (failedWith s .bounds)) ∧
    (s.len = 6 → s.src.toNat + 6 ≤ s.memSize →
      ∃ t c, exec .totpCmp s = .next t ∧ c = s.memRead s.src.toNat 6 ∧
        t = { s with matched := t.matched, busy := false, done := true, draws := t.draws } ∧
        (t.matched = true ↔ ∀ j, j < 6 → 0x30 ≤ (c.getD j 0).toNat ∧ (c.getD j 0).toNat ≤ 0x39 ∧
          (c.getD j 0).toNat = 0x30 + bcdDigit s.bcd (5 - j)))

/-! ### `generate` and `verify` -/

/-- R250: the host sequence of `generate`, command by command with the registers the host writes between them, leaves the six
characters of the code at `A_CODE`. The side conditions are those R348 asks of statements about `generate`: the sum of the time
step and the offset is not negative (spec/93 I4, so that the wrap of notes/assumptions/15.md does not enter), and the secret
does not decode to nothing (spec/93 I9). That the counter's bytes do not fall on the decoded key is a premise R250 does not
name (DEDUCED, notes/assumptions/16.md): without it the key would be read changed. -/
def Obligations.GenerateSequenceDeliversTheCode : Prop :=
  ∀ (s : State) (l : Layout) (secret code : List Byte) (offs : Word) (now : DWord),
    s.err = false → (∀ i, i < secret.length → s.mem.get? (l.txt.toNat + i) = secret[i]?) →
    l.txt.toNat + secret.length ≤ s.memSize → l.key.toNat + 5 * secret.length / 8 ≤ s.memSize →
    l.ctr.toNat + 8 ≤ s.memSize → l.dig.toNat + 20 ≤ s.memSize → l.code.toNat + 6 ≤ s.memSize →
    overlap l.txt.toNat secret.length l.key.toNat (5 * secret.length / 8) = false →
    overlap l.ctr.toNat 8 l.key.toNat (5 * secret.length / 8) = false →
    0 ≤ ((now.toNat / 30 : Nat) : Int) + offs.toInt → Base32.dec secret ≠ .ok [] →
    Totp.generate secret offs now = .ok code →
    ∃ s0 s1 s2 s3 s4 s5 s6,
      exec .b32Dec { s with src := l.txt, len := BitVec.ofNat 32 secret.length, dst := l.key } = .next s0 ∧
      exec .totpCtr { s0 with now := now, offs := offs } = .next s1 ∧
      exec .totpSer { s1 with dst := l.ctr } = .next s2 ∧
      exec .hmacMac { s2 with keya := l.key, keyl := s0.rlen, src := l.ctr, len := 8, dst := l.dig } = .next s3 ∧
      exec .totpTrunc { s3 with src := l.dig } = .next s4 ∧
      exec .totpMod s4 = .next s5 ∧
      exec .totpDig { s5 with dst := l.code } = .next s6 ∧
      s6.err = false ∧ ∀ j, j < 6 → s6.mem.get? (l.code.toNat + j) = code[j]?

/-- R252 (a) to (d), R251: `verify` accepts a code generated at the same time, one generated up to 30 seconds earlier with
`window` = 1, and takes a candidate whose length is not 6, and a negative window, for a non-match. The side conditions are
those R348 asks of statements about `verify`: the secret does not decode to nothing (spec/93 I9), and where a result rests on
a whole window no sum of the time step and an offset of it is negative (spec/93 I4); the window is also below 2^31, since R231
defines no counter beyond (notes/assumptions/17.md). That a code "must fail" at `T + 61` with `window` = 1 and at `T + 30` with
`window` = 0 holds up to a chance collision only (spec/90_conflicts.md C6); what is stated of it is that no counter of the
window is the code's. -/
def Obligations.VerifyFollowsTheDriftWindow : Prop :=
  ∀ (secret code : List Byte) (now : DWord), Base32.dec secret ≠ .ok [] → Totp.generate secret 0 now = .ok code →
    (∀ window : Int, 0 ≤ window → window < 2 ^ 31 → window ≤ (now.toNat / 30 : Nat) →
      Totp.verify secret code window now = .ok true) ∧
    (∀ d, d ≤ 30 → now.toNat + d < 2 ^ 64 → 30 ≤ now.toNat + d →
      Totp.verify secret code 1 (now + BitVec.ofNat 64 d) = .ok true) ∧
    (now.toNat + 61 < 2 ^ 64 → ∀ off ∈ Totp.offsets 1,
      Totp.counter (now + 61) (BitVec.ofInt 32 off) ≠ Totp.counter now 0) ∧
    (now.toNat + 30 < 2 ^ 64 → ∀ off ∈ Totp.offsets 0,
      Totp.counter (now + 30) (BitVec.ofInt 32 off) ≠ Totp.counter now 0) ∧
    (∀ (candidate : List Byte) (window : Int), candidate.length ≠ 6 ∨ window < 0 →
      Totp.verify secret candidate window now = .ok false)
end

