-- ==== Sys2Proof/Laws/Bytes.lean ====
section
/-! SUPPORT. The laws of the byte-string helpers: lengths, and how a list is cut into pieces. -/

namespace Sys2Proof.Machine

@[simp] theorem length_be32 (v : Word) : (be32 v).length = 4 := rfl

@[simp] theorem length_be64 (v : DWord) : (be64 v).length = 8 := rfl

@[simp] theorem length_zeros (k : Nat) : (zeros k).length = k := List.length_replicate ..

@[simp] theorem length_xorAll (x : Byte) (v : List Byte) : (xorAll x v).length = v.length := List.length_map ..

@[simp] theorem length_chunks {α : Type} (k n : Nat) (l : List α) : (chunks k n l).length = n := by
  induction n generalizing l with
  | zero => rfl
  | succ n ih => simp [chunks, ih]

@[simp] theorem chunks_zero {α : Type} (k : Nat) (l : List α) : chunks k 0 l = [] := rfl

theorem chunks_one {α : Type} (k : Nat) (l : List α) : chunks k 1 l = [l.take k] := rfl

theorem chunks_add {α : Type} (k m n : Nat) (l : List α) :
    chunks k (m + n) l = chunks k m l ++ chunks k n (l.drop (k * m)) := by
  induction m generalizing l with
  | zero => simp
  | succ m ih =>
    rw [show m + 1 + n = (m + n) + 1 by omega]
    simp only [chunks, ih, List.cons_append, List.drop_drop]
    rw [show k + k * m = k * (m + 1) by rw [Nat.mul_succ, Nat.add_comm]]

theorem chunks_append_left {α : Type} (k n : Nat) {l : List α} (r : List α) (h : k * n ≤ l.length) :
    chunks k n (l ++ r) = chunks k n l := by
  induction n generalizing l with
  | zero => rfl
  | succ n ih =>
    rw [Nat.mul_succ] at h
    simp only [chunks]
    rw [List.take_append_of_le_length (by omega), List.drop_append_of_le_length (by omega)]
    rw [ih (by rw [List.length_drop]; omega)]

/-- Two bit strings side by side, as a number. -/
theorem toNat_append_eq {n m : Nat} (x : BitVec n) (y : BitVec m) : (x ++ y).toNat = x.toNat * 2 ^ m + y.toNat := by
  rw [BitVec.toNat_append, ← Nat.shiftLeft_add_eq_or_of_lt y.isLt, Nat.shiftLeft_eq]

/-- The sum of R7 for `from_be32`. -/
theorem toNat_fromBe32 (b : List Byte) :
    (fromBe32 b).toNat = (b.getD 0 0).toNat * 2 ^ 24 + (b.getD 1 0).toNat * 2 ^ 16 + (b.getD 2 0).toNat * 2 ^ 8 +
      (b.getD 3 0).toNat := by
  simp only [fromBe32, toNat_append_eq]; omega

/-- Cutting a list of `k * n` elements into pieces of length `k` loses nothing. -/
theorem flatten_chunks {α : Type} (k n : Nat) {l : List α} (h : l.length = k * n) : (chunks k n l).flatten = l := by
  induction n generalizing l with
  | zero => rw [Nat.mul_zero] at h; rw [List.eq_nil_of_length_eq_zero h]; rfl
  | succ n ih =>
    rw [Nat.mul_succ] at h
    simp only [chunks, List.flatten_cons]
    rw [ih (by rw [List.length_drop]; omega), List.take_append_drop]

theorem getElem?_chunks {α : Type} (k n : Nat) (l : List α) {j : Nat} (hj : j < n) :
    (chunks k n l)[j]? = some ((l.drop (k * j)).take k) := by
  induction n generalizing l j with
  | zero => omega
  | succ n ih =>
    cases j with
    | zero => simp [chunks]
    | succ j =>
      rw [chunks, List.getElem?_cons_succ, ih _ (by omega), List.drop_drop, Nat.mul_succ, Nat.add_comm]

end Sys2Proof.Machine
end

