-- ==== Sys2Proof/Laws/Base32.lean ====
section
/-! SUPPORT. The laws of the Base32 helpers: bits and the numbers they form, the alphabet, and the scan on alphabet text
(spec/42_base32.md R202, R203). -/

namespace Sys2Proof.Machine

@[simp] theorem length_msbBits {w : Nat} (v : BitVec w) (n : Nat) : (msbBits v n).length = n := by
  induction n with
  | zero => rfl
  | succ n ih => simp [msbBits, ih]

theorem bitsToNat_append_singleton (bs : List Bool) (b : Bool) : bitsToNat (bs ++ [b]) = 2 * bitsToNat bs + b.toNat := by
  simp [bitsToNat]

theorem bitsToNat_lt (bs : List Bool) : bitsToNat bs < 2 ^ bs.length := by
  induction bs using List.reverseRecOn with
  | nil => simp [bitsToNat]
  | append_singleton bs b ih =>
    rw [bitsToNat_append_singleton, List.length_append, List.length_singleton, Nat.pow_succ]
    have := b.toNat_le
    omega

theorem bitsToNat_cons (b : Bool) (bs : List Bool) : bitsToNat (b :: bs) = b.toNat * 2 ^ bs.length + bitsToNat bs := by
  induction bs using List.reverseRecOn with
  | nil => simp [bitsToNat]
  | append_singleton bs c ih =>
    rw [← List.cons_append, bitsToNat_append_singleton, ih, bitsToNat_append_singleton, List.length_append,
      List.length_singleton, Nat.pow_succ]
    ring

theorem msbBits_eq_of_testBit {w v : Nat} (x : BitVec w) (y : BitVec v) (n : Nat)
    (h : ∀ i < n, x.getLsbD i = y.getLsbD i) : msbBits x n = msbBits y n := by
  induction n with
  | zero => rfl
  | succ n ih => rw [msbBits, msbBits, h n (by omega), ih fun i hi => h i (by omega)]

/-- The bits of the number that `w` bits form are those bits (R202, R203). -/
theorem msbBits_bitsToNat (w : Nat) (g : List Bool) (h : g.length ≤ w) :
    msbBits (BitVec.ofNat w (bitsToNat g)) g.length = g := by
  induction g with
  | nil => rfl
  | cons b bs ih =>
    have hw : bs.length < w := by simpa using h
    have hlt := bitsToNat_lt bs
    rw [List.length_cons, msbBits]
    congr 1
    · rw [BitVec.getLsbD_ofNat, bitsToNat_cons, Nat.mul_comm, Nat.testBit_two_pow_mul_add _ hlt]
      cases b <;> simp [hw]
    · conv_rhs => rw [← ih (by omega)]
      refine msbBits_eq_of_testBit _ _ _ fun i hi => ?_
      rw [BitVec.getLsbD_ofNat, BitVec.getLsbD_ofNat, bitsToNat_cons, Nat.mul_comm, Nat.testBit_two_pow_mul_add _ hlt,
        if_pos hi]

theorem bitsToNat_msbBits_aux {w : Nat} (v : BitVec w) (n : Nat) : bitsToNat (msbBits v n) = v.toNat % 2 ^ n := by
  induction n with
  | zero => simp [msbBits, bitsToNat, Nat.mod_one]
  | succ n ih =>
    rw [msbBits, bitsToNat_cons, length_msbBits, ih, BitVec.getLsbD, Nat.mod_pow_succ, Nat.toNat_testBit]
    ring

@[simp] theorem Base32.charValue_alpha {v : Nat} (h : v < 32) :
    Base32.charValue (Base32.alpha v) = some (BitVec.ofNat 5 v) := by
  have key : ∀ v : Fin 32, Base32.charValue (Base32.alpha v.val) = some (BitVec.ofNat 5 v.val) := by decide
  exact key ⟨v, h⟩

theorem Base32.isSpace_alpha {v : Nat} (h : v < 32) : Base32.isSpace (Base32.alpha v) = false := by
  have key : ∀ v : Fin 32, Base32.isSpace (Base32.alpha v.val) = false := by decide
  exact key ⟨v, h⟩

theorem Base32.alpha_ne_pad {v : Nat} (h : v < 32) : Base32.alpha v ≠ 0x3D := by
  have key : ∀ v : Fin 32, Base32.alpha v.val ≠ 0x3D := by decide
  exact key ⟨v, h⟩

/-- The scan skips trailing padding (R203). -/
theorem Base32.scan_padding (i k : Nat) (seenEq : Bool) :
    Base32.scan i seenEq (List.replicate k 0x3D) = .ok [] := by
  induction k generalizing i seenEq with
  | zero => rfl
  | succ k ih =>
    rw [List.replicate_succ, Base32.scan, if_neg (by decide), if_pos rfl, ih]

/-- The scan reads a text of alphabet characters and trailing padding as the characters' values in order (R203). -/
theorem Base32.scan_alpha (vs : List Nat) (hvs : ∀ v ∈ vs, v < 32) (i k : Nat) :
    Base32.scan i false (vs.map Base32.alpha ++ List.replicate k 0x3D) = .ok (vs.map (BitVec.ofNat 5)) := by
  induction vs generalizing i with
  | nil => exact Base32.scan_padding i k false
  | cons v vs ih =>
    have hv : v < 32 := hvs v (List.mem_cons_self ..)
    rw [List.map_cons, List.cons_append, Base32.scan, Base32.isSpace_alpha hv, Base32.charValue_alpha hv,
      if_neg Bool.false_ne_true, if_neg (Base32.alpha_ne_pad hv), if_neg Bool.false_ne_true,
      ih (fun w hw => hvs w (List.mem_cons_of_mem _ hw))]
    rfl

@[simp] theorem length_bitString (x : List Byte) : (bitString x).length = 8 * x.length := by
  induction x with
  | nil => rfl
  | cons b x ih =>
    have : (bitString (b :: x)).length = (msbBits b 8).length + (bitString x).length := by simp [bitString]
    rw [this, ih, length_msbBits, List.length_cons]; omega

/-- The filled bit string has whole groups of five (R202). -/
theorem Base32.length_filledBits (x : List Byte) :
    (Base32.filledBits x).length = 5 * Base32.dataChars x.length := by
  simp only [Base32.filledBits, List.length_append, length_bitString, List.length_replicate, Base32.dataChars]
  omega

/-- Cutting the bit string of `x`, whatever follows it, into bytes gives `x` (R203, R204). -/
theorem Base32.chunks_bitString (x : List Byte) (rest : List Bool) :
    (chunks 8 x.length (bitString x ++ rest)).map (fun g => BitVec.ofNat 8 (bitsToNat g)) = x := by
  induction x generalizing rest with
  | nil => rfl
  | cons b x ih =>
    have hs : bitString (b :: x) ++ rest = msbBits b 8 ++ (bitString x ++ rest) := by simp [bitString]
    have hl : (msbBits b 8).length = 8 := length_msbBits b 8
    rw [hs, List.length_cons, chunks, List.take_left' hl, List.drop_left' hl, List.map_cons, ih,
      bitsToNat_msbBits_aux]
    congr 1
    apply BitVec.eq_of_toNat_eq
    rw [BitVec.toNat_ofNat]
    have := b.isLt
    omega

/-- The text of `n` bytes is a multiple of eight characters and holds all of them (R111, R202). -/
theorem Base32.length_enc (x : List Byte) : (Base32.enc x).length = Base32.textLen x.length := by
  simp only [Base32.enc, List.length_append, List.length_map, length_chunks, List.length_replicate, Base32.dataChars,
    Base32.textLen]
  omega

@[simp] theorem Base32.length_pack (vs : List (BitVec 5)) : (Base32.pack vs).length = 5 * vs.length / 8 := by
  simp [Base32.pack]

/-- The scan yields at most one value a byte (R203). -/
theorem Base32.length_scan_le (t : List Byte) (i : Nat) (seenEq : Bool) {vs : List (BitVec 5)}
    (h : Base32.scan i seenEq t = .ok vs) : vs.length ≤ t.length := by
  induction t generalizing i seenEq vs with
  | nil => simp only [Base32.scan, Except.ok.injEq] at h; simp [← h]
  | cons c cs ih =>
    rw [List.length_cons]
    unfold Base32.scan at h
    split at h
    · exact Nat.le_succ_of_le (ih _ _ h)
    · split at h
      · exact Nat.le_succ_of_le (ih _ _ h)
      · split at h
        · exact absurd h (by simp)
        · split at h
          · exact absurd h (by simp)
          · split at h
            · exact absurd h (by simp)
            · rename_i ws hws
              simp only [Except.ok.injEq] at h
              rw [← h, List.length_cons]
              exact Nat.succ_le_succ (ih _ _ hws)

/-- A decoded text is no longer than the capacity of R207. -/
theorem Base32.length_dec_le {t y : List Byte} (h : Base32.dec t = .ok y) : y.length ≤ 5 * t.length / 8 := by
  unfold Base32.dec at h
  split at h
  · cases h
  · rename_i vs hvs
    cases h
    rw [Base32.length_pack]
    have := Base32.length_scan_le _ _ _ hvs
    omega

end Sys2Proof.Machine
end

