-- ==== Sys2Proof/Laws/Base32Scan.lean ====
section
/-! SUPPORT. The decoder's scan from any point of a text on (spec/42_base32.md R203): it stops at the first byte that may not
stand where it stands, else it gives the values of the alphabet characters in order. -/

namespace Sys2Proof.Machine

/-- Byte `i` of the rest `t` of a text may not stand there; `seen` tells whether an `=` came before `t`. -/
def Base32.OffendsAfter (seen : Bool) (t : List Byte) (i : Nat) : Prop :=
  ∃ c, t[i]? = some c ∧ Base32.isSpace c = false ∧ c ≠ 0x3D ∧
    (Base32.charValue c = none ∨ seen = true ∨ ∃ j, j < i ∧ t[j]? = some 0x3D)

/-- The values of the bytes that are neither whitespace nor `=`. -/
def Base32.values (t : List Byte) : List (BitVec 5) :=
  (t.filter fun c => !Base32.isSpace c && c != 0x3D).filterMap Base32.charValue

/-- What the scan of `t` from index `i` on answers. -/
def Base32.ScanSays (i : Nat) (seen : Bool) (t : List Byte) : Prop :=
  (∃ k, Base32.scan i seen t = .error (i + k) ∧ Base32.OffendsAfter seen t k ∧
    ∀ j, j < k → ¬ Base32.OffendsAfter seen t j) ∨
  ((∀ j, ¬ Base32.OffendsAfter seen t j) ∧ Base32.scan i seen t = .ok (Base32.values t))

theorem Base32.offendsAfter_succ (seen : Bool) (c : Byte) (t : List Byte) (i : Nat) :
    Base32.OffendsAfter seen (c :: t) (i + 1) ↔ Base32.OffendsAfter (seen || c == 0x3D) t i := by
  unfold Base32.OffendsAfter
  simp only [List.getElem?_cons_succ, Bool.or_eq_true, beq_iff_eq]
  constructor
  · rintro ⟨d, h1, h2, h3, h4 | h4 | ⟨j, hj, h5⟩⟩
    · exact ⟨d, h1, h2, h3, .inl h4⟩
    · exact ⟨d, h1, h2, h3, .inr (.inl (.inl h4))⟩
    · cases j with
      | zero => exact ⟨d, h1, h2, h3, .inr (.inl (.inr (by simpa using h5)))⟩
      | succ j => exact ⟨d, h1, h2, h3, .inr (.inr ⟨j, by omega, by simpa using h5⟩)⟩
  · rintro ⟨d, h1, h2, h3, h4 | (h4 | h4) | ⟨j, hj, h5⟩⟩
    · exact ⟨d, h1, h2, h3, .inl h4⟩
    · exact ⟨d, h1, h2, h3, .inr (.inl h4)⟩
    · exact ⟨d, h1, h2, h3, .inr (.inr ⟨0, by omega, by simp [h4]⟩)⟩
    · exact ⟨d, h1, h2, h3, .inr (.inr ⟨j + 1, by omega, by simpa using h5⟩)⟩

theorem Base32.offendsAfter_zero (seen : Bool) (c : Byte) (t : List Byte) :
    Base32.OffendsAfter seen (c :: t) 0 ↔
      Base32.isSpace c = false ∧ c ≠ 0x3D ∧ (Base32.charValue c = none ∨ seen = true) := by
  unfold Base32.OffendsAfter; simp

/-- One accepted byte: what holds of the rest holds of the whole, with the byte's value put in front by `f`. -/
theorem Base32.ScanSays.cons {i : Nat} {seen seen' : Bool} {c : Byte} {t : List Byte}
    (h : Base32.ScanSays (i + 1) seen' t) (hs : (seen || c == 0x3D) = seen')
    (h0 : ¬ Base32.OffendsAfter seen (c :: t) 0)
    (f : Except Nat (List (BitVec 5)) → Except Nat (List (BitVec 5)))
    (hf : Base32.scan i seen (c :: t) = f (Base32.scan (i + 1) seen' t)) (he : ∀ n, f (.error n) = .error n)
    (ho : f (.ok (Base32.values t)) = .ok (Base32.values (c :: t))) : Base32.ScanSays i seen (c :: t) := by
  rcases h with ⟨k, h1, h2, h3⟩ | ⟨h1, h2⟩
  · refine .inl ⟨k + 1, by rw [hf, h1, he]; congr 1; omega, by rw [Base32.offendsAfter_succ, hs]; exact h2, ?_⟩
    intro j hj
    cases j with
    | zero => exact h0
    | succ j => rw [Base32.offendsAfter_succ, hs]; exact h3 j (by omega)
  · refine .inr ⟨?_, by rw [hf, h2, ho]⟩
    intro j
    cases j with
    | zero => exact h0
    | succ j => rw [Base32.offendsAfter_succ, hs]; exact h1 j

theorem Base32.scanSays (t : List Byte) (i : Nat) (seen : Bool) : Base32.ScanSays i seen t := by
  induction t generalizing i seen with
  | nil => exact .inr ⟨by rintro j ⟨c, h, _⟩; simp at h, rfl⟩
  | cons c t ih =>
    by_cases h1 : Base32.isSpace c = true
    · refine (ih (i + 1) seen).cons ?_ ?_ id ?_ (fun _ => rfl) ?_
      · have : c ≠ 0x3D := by rintro rfl; revert h1; decide
        rw [beq_false_of_ne this, Bool.or_false]
      · rw [Base32.offendsAfter_zero]; simp [h1]
      · rw [Base32.scan, if_pos h1]; rfl
      · simp [Base32.values, h1]
    · have h1' : Base32.isSpace c = false := by simpa using h1
      by_cases h2 : c = 0x3D
      · refine (ih (i + 1) true).cons ?_ ?_ id ?_ (fun _ => rfl) ?_
        · simp [h2]
        · rw [Base32.offendsAfter_zero]; simp [h2]
        · rw [Base32.scan, if_neg h1, if_pos h2]; rfl
        · simp [Base32.values, h2]
      · by_cases h3 : seen = true
        · refine .inl ⟨0, ?_, ?_, by omega⟩
          · rw [Base32.scan, if_neg h1, if_neg h2, if_pos h3]; rfl
          · rw [Base32.offendsAfter_zero]; exact ⟨h1', h2, .inr h3⟩
        · have h3' : seen = false := by simpa using h3
          cases h4 : Base32.charValue c with
          | none =>
            refine .inl ⟨0, ?_, ?_, by omega⟩
            · rw [Base32.scan, if_neg h1, if_neg h2, if_neg h3, h4]; rfl
            · rw [Base32.offendsAfter_zero]; exact ⟨h1', h2, .inl h4⟩
          | some v =>
            refine (ih (i + 1) false).cons ?_ ?_
              (fun x => match x with | .error j => .error j | .ok vs => .ok (v :: vs)) ?_ (fun _ => rfl) ?_
            · rw [beq_false_of_ne h2, Bool.or_false, h3']
            · rw [Base32.offendsAfter_zero]; simp [h4, h3']
            · rw [Base32.scan, if_neg h1, if_neg h2, if_neg h3, h4]
              try rfl
            · have : (!Base32.isSpace c && c != 0x3D) = true := by rw [h1', bne_iff_ne.2 h2]; rfl
              simp only [Base32.values]
              rw [List.filter_cons_of_pos (p := fun c => !Base32.isSpace c && c != 0x3D) this,
                List.filterMap_cons_some h4]

end Sys2Proof.Machine
end

