-- ==== Sys2Proof/Laws/State.lean ====
section
/-! SUPPORT. One lemma per field per update of the state, all by `rfl`, so that no proof unfolds a record update. -/

namespace Sys2Proof.Machine

/-! ### `State.raise` -/

@[simp] theorem State.raise_ieDone (s : State) (e : ErrCode) (w : Word) : (s.raise e w).ieDone = s.ieDone := rfl
@[simp] theorem State.raise_ieErr (s : State) (e : ErrCode) (w : Word) : (s.raise e w).ieErr = s.ieErr := rfl
@[simp] theorem State.raise_busy (s : State) (e : ErrCode) (w : Word) : (s.raise e w).busy = s.busy := rfl
@[simp] theorem State.raise_done (s : State) (e : ErrCode) (w : Word) : (s.raise e w).done = s.done := rfl
@[simp] theorem State.raise_err (s : State) (e : ErrCode) (w : Word) : (s.raise e w).err = true := rfl
@[simp] theorem State.raise_matched (s : State) (e : ErrCode) (w : Word) : (s.raise e w).matched = s.matched := rfl
@[simp] theorem State.raise_st (s : State) (e : ErrCode) (w : Word) : (s.raise e w).st = s.st := rfl
@[simp] theorem State.raise_errcode (s : State) (e : ErrCode) (w : Word) : (s.raise e w).errcode = e := rfl
@[simp] theorem State.raise_einfo (s : State) (e : ErrCode) (w : Word) : (s.raise e w).einfo = w := rfl
@[simp] theorem State.raise_cw (s : State) (e : ErrCode) (w : Word) : (s.raise e w).cw = s.cw := rfl
@[simp] theorem State.raise_src (s : State) (e : ErrCode) (w : Word) : (s.raise e w).src = s.src := rfl
@[simp] theorem State.raise_len (s : State) (e : ErrCode) (w : Word) : (s.raise e w).len = s.len := rfl
@[simp] theorem State.raise_dst (s : State) (e : ErrCode) (w : Word) : (s.raise e w).dst = s.dst := rfl
@[simp] theorem State.raise_keya (s : State) (e : ErrCode) (w : Word) : (s.raise e w).keya = s.keya := rfl
@[simp] theorem State.raise_keyl (s : State) (e : ErrCode) (w : Word) : (s.raise e w).keyl = s.keyl := rfl
@[simp] theorem State.raise_rlen (s : State) (e : ErrCode) (w : Word) : (s.raise e w).rlen = s.rlen := rfl
@[simp] theorem State.raise_maddr (s : State) (e : ErrCode) (w : Word) : (s.raise e w).maddr = s.maddr := rfl
@[simp] theorem State.raise_now (s : State) (e : ErrCode) (w : Word) : (s.raise e w).now = s.now := rfl
@[simp] theorem State.raise_offs (s : State) (e : ErrCode) (w : Word) : (s.raise e w).offs = s.offs := rfl
@[simp] theorem State.raise_cnt (s : State) (e : ErrCode) (w : Word) : (s.raise e w).cnt = s.cnt := rfl
@[simp] theorem State.raise_value (s : State) (e : ErrCode) (w : Word) : (s.raise e w).value = s.value := rfl
@[simp] theorem State.raise_code (s : State) (e : ErrCode) (w : Word) : (s.raise e w).code = s.code := rfl
@[simp] theorem State.raise_bcd (s : State) (e : ErrCode) (w : Word) : (s.raise e w).bcd = s.bcd := rfl
@[simp] theorem State.raise_sha (s : State) (e : ErrCode) (w : Word) : (s.raise e w).sha = s.sha := rfl
@[simp] theorem State.raise_kblk (s : State) (e : ErrCode) (w : Word) : (s.raise e w).kblk = s.kblk := rfl
@[simp] theorem State.raise_mem (s : State) (e : ErrCode) (w : Word) : (s.raise e w).mem = s.mem := rfl
@[simp] theorem State.raise_cfg (s : State) (e : ErrCode) (w : Word) : (s.raise e w).cfg = s.cfg := rfl
@[simp] theorem State.raise_agenda (s : State) (e : ErrCode) (w : Word) : (s.raise e w).agenda = s.agenda := rfl
@[simp] theorem State.raise_rdata (s : State) (e : ErrCode) (w : Word) : (s.raise e w).rdata = s.rdata := rfl
@[simp] theorem State.raise_draws (s : State) (e : ErrCode) (w : Word) : (s.raise e w).draws = s.draws := rfl

/-! ### `State.drawn` -/

@[simp] theorem State.drawn_ieDone (s : State) (n : Nat) : (s.drawn n).ieDone = s.ieDone := rfl
@[simp] theorem State.drawn_ieErr (s : State) (n : Nat) : (s.drawn n).ieErr = s.ieErr := rfl
@[simp] theorem State.drawn_busy (s : State) (n : Nat) : (s.drawn n).busy = s.busy := rfl
@[simp] theorem State.drawn_done (s : State) (n : Nat) : (s.drawn n).done = s.done := rfl
@[simp] theorem State.drawn_err (s : State) (n : Nat) : (s.drawn n).err = s.err := rfl
@[simp] theorem State.drawn_matched (s : State) (n : Nat) : (s.drawn n).matched = s.matched := rfl
@[simp] theorem State.drawn_st (s : State) (n : Nat) : (s.drawn n).st = s.st := rfl
@[simp] theorem State.drawn_errcode (s : State) (n : Nat) : (s.drawn n).errcode = s.errcode := rfl
@[simp] theorem State.drawn_einfo (s : State) (n : Nat) : (s.drawn n).einfo = s.einfo := rfl
@[simp] theorem State.drawn_cw (s : State) (n : Nat) : (s.drawn n).cw = s.cw := rfl
@[simp] theorem State.drawn_src (s : State) (n : Nat) : (s.drawn n).src = s.src := rfl
@[simp] theorem State.drawn_len (s : State) (n : Nat) : (s.drawn n).len = s.len := rfl
@[simp] theorem State.drawn_dst (s : State) (n : Nat) : (s.drawn n).dst = s.dst := rfl
@[simp] theorem State.drawn_keya (s : State) (n : Nat) : (s.drawn n).keya = s.keya := rfl
@[simp] theorem State.drawn_keyl (s : State) (n : Nat) : (s.drawn n).keyl = s.keyl := rfl
@[simp] theorem State.drawn_rlen (s : State) (n : Nat) : (s.drawn n).rlen = s.rlen := rfl
@[simp] theorem State.drawn_maddr (s : State) (n : Nat) : (s.drawn n).maddr = s.maddr := rfl
@[simp] theorem State.drawn_now (s : State) (n : Nat) : (s.drawn n).now = s.now := rfl
@[simp] theorem State.drawn_offs (s : State) (n : Nat) : (s.drawn n).offs = s.offs := rfl
@[simp] theorem State.drawn_cnt (s : State) (n : Nat) : (s.drawn n).cnt = s.cnt := rfl
@[simp] theorem State.drawn_value (s : State) (n : Nat) : (s.drawn n).value = s.value := rfl
@[simp] theorem State.drawn_code (s : State) (n : Nat) : (s.drawn n).code = s.code := rfl
@[simp] theorem State.drawn_bcd (s : State) (n : Nat) : (s.drawn n).bcd = s.bcd := rfl
@[simp] theorem State.drawn_sha (s : State) (n : Nat) : (s.drawn n).sha = s.sha := rfl
@[simp] theorem State.drawn_kblk (s : State) (n : Nat) : (s.drawn n).kblk = s.kblk := rfl
@[simp] theorem State.drawn_mem (s : State) (n : Nat) : (s.drawn n).mem = s.mem := rfl
@[simp] theorem State.drawn_cfg (s : State) (n : Nat) : (s.drawn n).cfg = s.cfg := rfl
@[simp] theorem State.drawn_agenda (s : State) (n : Nat) : (s.drawn n).agenda = s.agenda := rfl
@[simp] theorem State.drawn_rdata (s : State) (n : Nat) : (s.drawn n).rdata = s.rdata := rfl
@[simp] theorem State.drawn_draws (s : State) (n : Nat) : (s.drawn n).draws = s.draws + n := rfl

/-! ### `State.memWrite` -/

@[simp] theorem State.memWrite_ieDone (s : State) (a : Nat) (v : List Byte) : (s.memWrite a v).ieDone = s.ieDone := rfl
@[simp] theorem State.memWrite_ieErr (s : State) (a : Nat) (v : List Byte) : (s.memWrite a v).ieErr = s.ieErr := rfl
@[simp] theorem State.memWrite_busy (s : State) (a : Nat) (v : List Byte) : (s.memWrite a v).busy = s.busy := rfl
@[simp] theorem State.memWrite_done (s : State) (a : Nat) (v : List Byte) : (s.memWrite a v).done = s.done := rfl
@[simp] theorem State.memWrite_err (s : State) (a : Nat) (v : List Byte) : (s.memWrite a v).err = s.err := rfl
@[simp] theorem State.memWrite_matched (s : State) (a : Nat) (v : List Byte) : (s.memWrite a v).matched = s.matched := rfl
@[simp] theorem State.memWrite_st (s : State) (a : Nat) (v : List Byte) : (s.memWrite a v).st = s.st := rfl
@[simp] theorem State.memWrite_errcode (s : State) (a : Nat) (v : List Byte) : (s.memWrite a v).errcode = s.errcode := rfl
@[simp] theorem State.memWrite_einfo (s : State) (a : Nat) (v : List Byte) : (s.memWrite a v).einfo = s.einfo := rfl
@[simp] theorem State.memWrite_cw (s : State) (a : Nat) (v : List Byte) : (s.memWrite a v).cw = s.cw := rfl
@[simp] theorem State.memWrite_src (s : State) (a : Nat) (v : List Byte) : (s.memWrite a v).src = s.src := rfl
@[simp] theorem State.memWrite_len (s : State) (a : Nat) (v : List Byte) : (s.memWrite a v).len = s.len := rfl
@[simp] theorem State.memWrite_dst (s : State) (a : Nat) (v : List Byte) : (s.memWrite a v).dst = s.dst := rfl
@[simp] theorem State.memWrite_keya (s : State) (a : Nat) (v : List Byte) : (s.memWrite a v).keya = s.keya := rfl
@[simp] theorem State.memWrite_keyl (s : State) (a : Nat) (v : List Byte) : (s.memWrite a v).keyl = s.keyl := rfl
@[simp] theorem State.memWrite_rlen (s : State) (a : Nat) (v : List Byte) : (s.memWrite a v).rlen = s.rlen := rfl
@[simp] theorem State.memWrite_maddr (s : State) (a : Nat) (v : List Byte) : (s.memWrite a v).maddr = s.maddr := rfl
@[simp] theorem State.memWrite_now (s : State) (a : Nat) (v : List Byte) : (s.memWrite a v).now = s.now := rfl
@[simp] theorem State.memWrite_offs (s : State) (a : Nat) (v : List Byte) : (s.memWrite a v).offs = s.offs := rfl
@[simp] theorem State.memWrite_cnt (s : State) (a : Nat) (v : List Byte) : (s.memWrite a v).cnt = s.cnt := rfl
@[simp] theorem State.memWrite_value (s : State) (a : Nat) (v : List Byte) : (s.memWrite a v).value = s.value := rfl
@[simp] theorem State.memWrite_code (s : State) (a : Nat) (v : List Byte) : (s.memWrite a v).code = s.code := rfl
@[simp] theorem State.memWrite_bcd (s : State) (a : Nat) (v : List Byte) : (s.memWrite a v).bcd = s.bcd := rfl
@[simp] theorem State.memWrite_sha (s : State) (a : Nat) (v : List Byte) : (s.memWrite a v).sha = s.sha := rfl
@[simp] theorem State.memWrite_kblk (s : State) (a : Nat) (v : List Byte) : (s.memWrite a v).kblk = s.kblk := rfl
@[simp] theorem State.memWrite_mem (s : State) (a : Nat) (v : List Byte) : (s.memWrite a v).mem = s.mem.write a v := rfl
@[simp] theorem State.memWrite_cfg (s : State) (a : Nat) (v : List Byte) : (s.memWrite a v).cfg = s.cfg := rfl
@[simp] theorem State.memWrite_agenda (s : State) (a : Nat) (v : List Byte) : (s.memWrite a v).agenda = s.agenda := rfl
@[simp] theorem State.memWrite_rdata (s : State) (a : Nat) (v : List Byte) : (s.memWrite a v).rdata = s.rdata := rfl
@[simp] theorem State.memWrite_draws (s : State) (a : Nat) (v : List Byte) : (s.memWrite a v).draws = s.draws := rfl

/-! ### `State.finished` -/

@[simp] theorem State.finished_ieDone (s : State) : s.finished.ieDone = s.ieDone := rfl
@[simp] theorem State.finished_ieErr (s : State) : s.finished.ieErr = s.ieErr := rfl
@[simp] theorem State.finished_busy (s : State) : s.finished.busy = false := rfl
@[simp] theorem State.finished_done (s : State) : s.finished.done = true := rfl
@[simp] theorem State.finished_err (s : State) : s.finished.err = s.err := rfl
@[simp] theorem State.finished_matched (s : State) : s.finished.matched = s.matched := rfl
@[simp] theorem State.finished_st (s : State) : s.finished.st = s.st := rfl
@[simp] theorem State.finished_errcode (s : State) : s.finished.errcode = s.errcode := rfl
@[simp] theorem State.finished_einfo (s : State) : s.finished.einfo = s.einfo := rfl
@[simp] theorem State.finished_cw (s : State) : s.finished.cw = s.cw := rfl
@[simp] theorem State.finished_src (s : State) : s.finished.src = s.src := rfl
@[simp] theorem State.finished_len (s : State) : s.finished.len = s.len := rfl
@[simp] theorem State.finished_dst (s : State) : s.finished.dst = s.dst := rfl
@[simp] theorem State.finished_keya (s : State) : s.finished.keya = s.keya := rfl
@[simp] theorem State.finished_keyl (s : State) : s.finished.keyl = s.keyl := rfl
@[simp] theorem State.finished_rlen (s : State) : s.finished.rlen = s.rlen := rfl
@[simp] theorem State.finished_maddr (s : State) : s.finished.maddr = s.maddr := rfl
@[simp] theorem State.finished_now (s : State) : s.finished.now = s.now := rfl
@[simp] theorem State.finished_offs (s : State) : s.finished.offs = s.offs := rfl
@[simp] theorem State.finished_cnt (s : State) : s.finished.cnt = s.cnt := rfl
@[simp] theorem State.finished_value (s : State) : s.finished.value = s.value := rfl
@[simp] theorem State.finished_code (s : State) : s.finished.code = s.code := rfl
@[simp] theorem State.finished_bcd (s : State) : s.finished.bcd = s.bcd := rfl
@[simp] theorem State.finished_sha (s : State) : s.finished.sha = s.sha := rfl
@[simp] theorem State.finished_kblk (s : State) : s.finished.kblk = s.kblk := rfl
@[simp] theorem State.finished_mem (s : State) : s.finished.mem = s.mem := rfl
@[simp] theorem State.finished_cfg (s : State) : s.finished.cfg = s.cfg := rfl
@[simp] theorem State.finished_agenda (s : State) : s.finished.agenda = s.agenda := rfl
@[simp] theorem State.finished_rdata (s : State) : s.finished.rdata = s.rdata := rfl
@[simp] theorem State.finished_draws (s : State) : s.finished.draws = s.draws := rfl

/-! ### `State.accept` -/

@[simp] theorem State.accept_ieDone (s : State) (w : Word) : (s.accept w).ieDone = s.ieDone := rfl
@[simp] theorem State.accept_ieErr (s : State) (w : Word) : (s.accept w).ieErr = s.ieErr := rfl
@[simp] theorem State.accept_busy (s : State) (w : Word) : (s.accept w).busy = true := rfl
@[simp] theorem State.accept_done (s : State) (w : Word) : (s.accept w).done = false := rfl
@[simp] theorem State.accept_err (s : State) (w : Word) : (s.accept w).err = s.err := rfl
@[simp] theorem State.accept_matched (s : State) (w : Word) : (s.accept w).matched = s.matched := rfl
@[simp] theorem State.accept_st (s : State) (w : Word) : (s.accept w).st = s.st := rfl
@[simp] theorem State.accept_errcode (s : State) (w : Word) : (s.accept w).errcode = s.errcode := rfl
@[simp] theorem State.accept_einfo (s : State) (w : Word) : (s.accept w).einfo = s.einfo := rfl
@[simp] theorem State.accept_cw (s : State) (w : Word) : (s.accept w).cw = w := rfl
@[simp] theorem State.accept_src (s : State) (w : Word) : (s.accept w).src = s.src := rfl
@[simp] theorem State.accept_len (s : State) (w : Word) : (s.accept w).len = s.len := rfl
@[simp] theorem State.accept_dst (s : State) (w : Word) : (s.accept w).dst = s.dst := rfl
@[simp] theorem State.accept_keya (s : State) (w : Word) : (s.accept w).keya = s.keya := rfl
@[simp] theorem State.accept_keyl (s : State) (w : Word) : (s.accept w).keyl = s.keyl := rfl
@[simp] theorem State.accept_rlen (s : State) (w : Word) : (s.accept w).rlen = s.rlen := rfl
@[simp] theorem State.accept_maddr (s : State) (w : Word) : (s.accept w).maddr = s.maddr := rfl
@[simp] theorem State.accept_now (s : State) (w : Word) : (s.accept w).now = s.now := rfl
@[simp] theorem State.accept_offs (s : State) (w : Word) : (s.accept w).offs = s.offs := rfl
@[simp] theorem State.accept_cnt (s : State) (w : Word) : (s.accept w).cnt = s.cnt := rfl
@[simp] theorem State.accept_value (s : State) (w : Word) : (s.accept w).value = s.value := rfl
@[simp] theorem State.accept_code (s : State) (w : Word) : (s.accept w).code = s.code := rfl
@[simp] theorem State.accept_bcd (s : State) (w : Word) : (s.accept w).bcd = s.bcd := rfl
@[simp] theorem State.accept_sha (s : State) (w : Word) : (s.accept w).sha = s.sha := rfl
@[simp] theorem State.accept_kblk (s : State) (w : Word) : (s.accept w).kblk = s.kblk := rfl
@[simp] theorem State.accept_mem (s : State) (w : Word) : (s.accept w).mem = s.mem := rfl
@[simp] theorem State.accept_cfg (s : State) (w : Word) : (s.accept w).cfg = s.cfg := rfl
@[simp] theorem State.accept_agenda (s : State) (w : Word) : (s.accept w).agenda = s.agenda := rfl
@[simp] theorem State.accept_rdata (s : State) (w : Word) : (s.accept w).rdata = s.rdata := rfl
@[simp] theorem State.accept_draws (s : State) (w : Word) : (s.accept w).draws = s.draws := rfl

/-! ### `State.bumpMaddr` -/

@[simp] theorem State.bumpMaddr_ieDone (s : State) : s.bumpMaddr.ieDone = s.ieDone := rfl
@[simp] theorem State.bumpMaddr_ieErr (s : State) : s.bumpMaddr.ieErr = s.ieErr := rfl
@[simp] theorem State.bumpMaddr_busy (s : State) : s.bumpMaddr.busy = s.busy := rfl
@[simp] theorem State.bumpMaddr_done (s : State) : s.bumpMaddr.done = s.done := rfl
@[simp] theorem State.bumpMaddr_err (s : State) : s.bumpMaddr.err = s.err := rfl
@[simp] theorem State.bumpMaddr_matched (s : State) : s.bumpMaddr.matched = s.matched := rfl
@[simp] theorem State.bumpMaddr_st (s : State) : s.bumpMaddr.st = s.st := rfl
@[simp] theorem State.bumpMaddr_errcode (s : State) : s.bumpMaddr.errcode = s.errcode := rfl
@[simp] theorem State.bumpMaddr_einfo (s : State) : s.bumpMaddr.einfo = s.einfo := rfl
@[simp] theorem State.bumpMaddr_cw (s : State) : s.bumpMaddr.cw = s.cw := rfl
@[simp] theorem State.bumpMaddr_src (s : State) : s.bumpMaddr.src = s.src := rfl
@[simp] theorem State.bumpMaddr_len (s : State) : s.bumpMaddr.len = s.len := rfl
@[simp] theorem State.bumpMaddr_dst (s : State) : s.bumpMaddr.dst = s.dst := rfl
@[simp] theorem State.bumpMaddr_keya (s : State) : s.bumpMaddr.keya = s.keya := rfl
@[simp] theorem State.bumpMaddr_keyl (s : State) : s.bumpMaddr.keyl = s.keyl := rfl
@[simp] theorem State.bumpMaddr_rlen (s : State) : s.bumpMaddr.rlen = s.rlen := rfl
@[simp] theorem State.bumpMaddr_maddr (s : State) : s.bumpMaddr.maddr = BitVec.ofNat 16 ((s.maddr.toNat + 1) % s.memSize) := rfl
@[simp] theorem State.bumpMaddr_now (s : State) : s.bumpMaddr.now = s.now := rfl
@[simp] theorem State.bumpMaddr_offs (s : State) : s.bumpMaddr.offs = s.offs := rfl
@[simp] theorem State.bumpMaddr_cnt (s : State) : s.bumpMaddr.cnt = s.cnt := rfl
@[simp] theorem State.bumpMaddr_value (s : State) : s.bumpMaddr.value = s.value := rfl
@[simp] theorem State.bumpMaddr_code (s : State) : s.bumpMaddr.code = s.code := rfl
@[simp] theorem State.bumpMaddr_bcd (s : State) : s.bumpMaddr.bcd = s.bcd := rfl
@[simp] theorem State.bumpMaddr_sha (s : State) : s.bumpMaddr.sha = s.sha := rfl
@[simp] theorem State.bumpMaddr_kblk (s : State) : s.bumpMaddr.kblk = s.kblk := rfl
@[simp] theorem State.bumpMaddr_mem (s : State) : s.bumpMaddr.mem = s.mem := rfl
@[simp] theorem State.bumpMaddr_cfg (s : State) : s.bumpMaddr.cfg = s.cfg := rfl
@[simp] theorem State.bumpMaddr_agenda (s : State) : s.bumpMaddr.agenda = s.agenda := rfl
@[simp] theorem State.bumpMaddr_rdata (s : State) : s.bumpMaddr.rdata = s.rdata := rfl
@[simp] theorem State.bumpMaddr_draws (s : State) : s.bumpMaddr.draws = s.draws := rfl

/-! ### `State.tookEvent` -/

@[simp] theorem State.tookEvent_ieDone (s : State) (r : List Event) : (s.tookEvent r).ieDone = s.ieDone := rfl
@[simp] theorem State.tookEvent_ieErr (s : State) (r : List Event) : (s.tookEvent r).ieErr = s.ieErr := rfl
@[simp] theorem State.tookEvent_busy (s : State) (r : List Event) : (s.tookEvent r).busy = s.busy := rfl
@[simp] theorem State.tookEvent_done (s : State) (r : List Event) : (s.tookEvent r).done = s.done := rfl
@[simp] theorem State.tookEvent_err (s : State) (r : List Event) : (s.tookEvent r).err = s.err := rfl
@[simp] theorem State.tookEvent_matched (s : State) (r : List Event) : (s.tookEvent r).matched = s.matched := rfl
@[simp] theorem State.tookEvent_st (s : State) (r : List Event) : (s.tookEvent r).st = s.st := rfl
@[simp] theorem State.tookEvent_errcode (s : State) (r : List Event) : (s.tookEvent r).errcode = s.errcode := rfl
@[simp] theorem State.tookEvent_einfo (s : State) (r : List Event) : (s.tookEvent r).einfo = s.einfo := rfl
@[simp] theorem State.tookEvent_cw (s : State) (r : List Event) : (s.tookEvent r).cw = s.cw := rfl
@[simp] theorem State.tookEvent_src (s : State) (r : List Event) : (s.tookEvent r).src = s.src := rfl
@[simp] theorem State.tookEvent_len (s : State) (r : List Event) : (s.tookEvent r).len = s.len := rfl
@[simp] theorem State.tookEvent_dst (s : State) (r : List Event) : (s.tookEvent r).dst = s.dst := rfl
@[simp] theorem State.tookEvent_keya (s : State) (r : List Event) : (s.tookEvent r).keya = s.keya := rfl
@[simp] theorem State.tookEvent_keyl (s : State) (r : List Event) : (s.tookEvent r).keyl = s.keyl := rfl
@[simp] theorem State.tookEvent_rlen (s : State) (r : List Event) : (s.tookEvent r).rlen = s.rlen := rfl
@[simp] theorem State.tookEvent_maddr (s : State) (r : List Event) : (s.tookEvent r).maddr = s.maddr := rfl
@[simp] theorem State.tookEvent_now (s : State) (r : List Event) : (s.tookEvent r).now = s.now := rfl
@[simp] theorem State.tookEvent_offs (s : State) (r : List Event) : (s.tookEvent r).offs = s.offs := rfl
@[simp] theorem State.tookEvent_cnt (s : State) (r : List Event) : (s.tookEvent r).cnt = s.cnt := rfl
@[simp] theorem State.tookEvent_value (s : State) (r : List Event) : (s.tookEvent r).value = s.value := rfl
@[simp] theorem State.tookEvent_code (s : State) (r : List Event) : (s.tookEvent r).code = s.code := rfl
@[simp] theorem State.tookEvent_bcd (s : State) (r : List Event) : (s.tookEvent r).bcd = s.bcd := rfl
@[simp] theorem State.tookEvent_sha (s : State) (r : List Event) : (s.tookEvent r).sha = s.sha := rfl
@[simp] theorem State.tookEvent_kblk (s : State) (r : List Event) : (s.tookEvent r).kblk = s.kblk := rfl
@[simp] theorem State.tookEvent_mem (s : State) (r : List Event) : (s.tookEvent r).mem = s.mem := rfl
@[simp] theorem State.tookEvent_cfg (s : State) (r : List Event) : (s.tookEvent r).cfg = s.cfg := rfl
@[simp] theorem State.tookEvent_agenda (s : State) (r : List Event) : (s.tookEvent r).agenda = r := rfl
@[simp] theorem State.tookEvent_rdata (s : State) (r : List Event) : (s.tookEvent r).rdata = s.rdata := rfl
@[simp] theorem State.tookEvent_draws (s : State) (r : List Event) : (s.tookEvent r).draws = s.draws := rfl

/-! ### What depends on the configuration alone -/

@[simp] theorem State.raise_memSize (s : State) (e : ErrCode) (w : Word) : (s.raise e w).memSize = s.memSize := rfl
@[simp] theorem State.drawn_memSize (s : State) (n : Nat) : (s.drawn n).memSize = s.memSize := rfl
@[simp] theorem State.memWrite_memSize (s : State) (a : Nat) (v : List Byte) : (s.memWrite a v).memSize = s.memSize := rfl
@[simp] theorem State.finished_memSize (s : State) : s.finished.memSize = s.memSize := rfl
@[simp] theorem State.accept_memSize (s : State) (w : Word) : (s.accept w).memSize = s.memSize := rfl
@[simp] theorem State.tookEvent_memSize (s : State) (r : List Event) : (s.tookEvent r).memSize = s.memSize := rfl

@[simp] theorem State.inBounds_eq_true (s : State) (b : Word) (n : Nat) :
    s.inBounds b n = true ↔ b.toNat + n ≤ s.memSize := by simp [State.inBounds]

@[simp] theorem State.inBounds_eq_false (s : State) (b : Word) (n : Nat) :
    s.inBounds b n = false ↔ s.memSize < b.toNat + n := by simp [State.inBounds]

theorem State.outside {s : State} {b : Word} {n : Nat} (h : (!s.inBounds b n) = true) :
    s.memSize < b.toNat + n := by simpa using h

theorem State.inside {s : State} {b : Word} {n : Nat} (h : ¬(!s.inBounds b n) = true) :
    b.toNat + n ≤ s.memSize := by simpa using h

end Sys2Proof.Machine

namespace Sys2Proof

/-- `MEMSZ` is at most 65536, so a 16-bit pointer reaches all of it (R70). -/
theorem Config.memSize_le (c : Config) : c.memSize ≤ 65536 := by
  have h : c.aw ≤ 16 := by have := c.awSel.isLt; unfold Config.aw; omega
  exact Nat.pow_le_pow_right (by omega) h

/-- `MEMSZ` is at least 256 (R70). -/
theorem Config.le_memSize (c : Config) : 256 ≤ c.memSize := by
  have h : 2 ^ 8 ≤ 2 ^ c.aw := Nat.pow_le_pow_right (by omega) (Nat.le_add_right 8 c.awSel.val)
  simpa [Config.memSize] using h

end Sys2Proof
end

