-- ==== Sys2Proof/Laws/Exec.lean ====
section
/-! SUPPORT. What a command can do, said once: `exec` is the complete step of the command's effect (spec/44_system.md R272),
and each effect either raises an error before it writes anything or takes its one successful branch. -/

namespace Sys2Proof.Machine

/-- The effect of each command, the body of R272. -/
def effectOf : Instr → State → State
  | .nop => nopEffect
  | .sysZero => sysZeroEffect
  | .sha1Init => sha1InitEffect
  | .sha1Update => sha1UpdateEffect
  | .sha1Final => sha1FinalEffect
  | .sha1Block => sha1BlockEffect
  | .sha1Hash => sha1HashEffect
  | .hmacMac => hmacMacEffect
  | .hmacInit => hmacInitEffect
  | .hmacFinal => hmacFinalEffect
  | .b32Enc => b32EncEffect
  | .b32Dec => b32DecEffect
  | .totpCtr => totpCtrEffect
  | .totpSer => totpSerEffect
  | .totpTrunc => totpTruncEffect
  | .totpMod => totpModEffect
  | .totpDig => totpDigEffect
  | .totpCmp => totpCmpEffect

theorem exec_eq (i : Instr) (s : State) : exec i s = .next (s.complete (effectOf i)) := by cases i <;> rfl

theorem exec_next {i : Instr} {s t : State} (h : exec i s = .next t) : t = s.complete (effectOf i) := by
  rw [exec_eq] at h; exact (Host.Outcome.next.inj h).symm

theorem State.complete_of_err {s : State} (f : State → State) (h : s.err = true) : s.complete f = s.finished := by
  simp [State.complete, h]

theorem State.complete_of_noErr {s : State} (f : State → State) (h : s.err = false) :
    s.complete f = (f s).finished := by
  simp [State.complete, h]

/-- The complete step of a command that is not discarded (R272). -/
theorem exec_of_noErr (i : Instr) {s : State} (h : s.err = false) : exec i s = .next (effectOf i s).finished := by
  rw [exec_eq, State.complete_of_noErr _ h]

theorem exec_of_err (i : Instr) {s : State} (h : s.err = true) : exec i s = .next s.finished := by
  rw [exec_eq, State.complete_of_err _ h]

theorem sha1UpdateEffect_cases (s : State) :
    (s.st = .idle ∧ sha1UpdateEffect s = s.raise .seq s.cw) ∨
    (s.st ≠ .idle ∧ s.memSize < s.src.toNat + s.len.toNat ∧ sha1UpdateEffect s = s.raise .bounds s.cw) ∨
    (s.st ≠ .idle ∧ s.src.toNat + s.len.toNat ≤ s.memSize ∧ sha1UpdateEffect s =
      { s.drawn s.len.toNat with sha := s.sha.absorb (s.memRead s.src.toNat s.len.toNat) }) := by
  unfold sha1UpdateEffect
  split
  · exact .inl ⟨‹_›, rfl⟩
  · split
    · exact .inr (.inl ⟨‹_›, State.outside ‹_›, rfl⟩)
    · exact .inr (.inr ⟨‹_›, State.inside ‹_›, rfl⟩)

theorem sha1FinalEffect_cases (s : State) :
    (s.st ≠ .sha ∧ sha1FinalEffect s = s.raise .seq s.cw) ∨
    (s.st = .sha ∧ s.memSize < s.dst.toNat + 20 ∧ sha1FinalEffect s = s.raise .bounds s.cw) ∨
    (s.st = .sha ∧ s.dst.toNat + 20 ≤ s.memSize ∧ sha1FinalEffect s =
      { s.memWrite s.dst.toNat (Sha1.digest s.sha.finish.h) with
        rlen := 20, sha := s.sha.finish.closed, st := .idle }) := by
  unfold sha1FinalEffect
  split
  · exact .inl ⟨‹_›, rfl⟩
  · have hst : s.st = .sha := not_not.1 ‹_›
    split
    · exact .inr (.inl ⟨hst, State.outside ‹_›, rfl⟩)
    · exact .inr (.inr ⟨hst, State.inside ‹_›, rfl⟩)

theorem sha1BlockEffect_cases (s : State) :
    (s.memSize < s.src.toNat + 64 ∧ sha1BlockEffect s = s.raise .bounds s.cw) ∨
    (s.src.toNat + 64 ≤ s.memSize ∧ sha1BlockEffect s =
      { s.drawn 64 with sha := s.sha.compress (s.memRead s.src.toNat 64) }) := by
  unfold sha1BlockEffect
  split
  · exact .inl ⟨State.outside ‹_›, rfl⟩
  · exact .inr ⟨State.inside ‹_›, rfl⟩

theorem sha1HashEffect_cases (s : State) :
    ((s.memSize < s.src.toNat + s.len.toNat ∨ s.memSize < s.dst.toNat + 20) ∧
      sha1HashEffect s = s.raise .bounds s.cw) ∨
    (s.src.toNat + s.len.toNat ≤ s.memSize ∧ s.dst.toNat + 20 ≤ s.memSize ∧ sha1HashEffect s =
      (s.drawn s.len.toNat).deliver (Sha1.hash (s.memRead s.src.toNat s.len.toNat))
        (s.sha.hash (s.memRead s.src.toNat s.len.toNat)).work) := by
  unfold sha1HashEffect
  split
  · exact .inl ⟨.inl (State.outside ‹_›), rfl⟩
  · split
    · exact .inl ⟨.inr (State.outside ‹_›), rfl⟩
    · exact .inr ⟨State.inside ‹_›, State.inside ‹_›, rfl⟩

theorem hmacMacEffect_cases (s : State) :
    ((s.memSize < s.keya.toNat + s.keyl.toNat ∨ s.memSize < s.src.toNat + s.len.toNat ∨
        s.memSize < s.dst.toNat + 20) ∧ hmacMacEffect s = s.raise .bounds s.cw) ∨
    (s.keya.toNat + s.keyl.toNat ≤ s.memSize ∧ s.src.toNat + s.len.toNat ≤ s.memSize ∧
      s.dst.toNat + 20 ≤ s.memSize ∧ hmacMacEffect s =
        ((s.drawn s.keyl.toNat).drawn s.len.toNat).deliver
          (Hmac.mac (s.memRead s.keya.toNat s.keyl.toNat)
            ((s.drawn s.keyl.toNat).memRead s.src.toNat s.len.toNat))
          (s.sha.hash (Hmac.outerInput (s.memRead s.keya.toNat s.keyl.toNat)
            ((s.drawn s.keyl.toNat).memRead s.src.toNat s.len.toNat))).work) := by
  unfold hmacMacEffect
  split
  · exact .inl ⟨.inl (State.outside ‹_›), rfl⟩
  · split
    · exact .inl ⟨.inr (.inl (State.outside ‹_›)), rfl⟩
    · split
      · exact .inl ⟨.inr (.inr (State.outside ‹_›)), rfl⟩
      · exact .inr ⟨State.inside ‹_›, State.inside ‹_›, State.inside ‹_›, rfl⟩

theorem hmacInitEffect_cases (s : State) :
    (s.memSize < s.keya.toNat + s.keyl.toNat ∧ hmacInitEffect s = s.raise .bounds s.cw) ∨
    (s.keya.toNat + s.keyl.toNat ≤ s.memSize ∧ hmacInitEffect s =
      { s.drawn s.keyl.toNat with
        kblk := toBlock (Hmac.keyBlock (s.memRead s.keya.toNat s.keyl.toNat))
        sha := s.sha.opened.absorb (Hmac.ipad (Hmac.keyBlock (s.memRead s.keya.toNat s.keyl.toNat)))
        st := .hmac }) := by
  unfold hmacInitEffect
  split
  · exact .inl ⟨State.outside ‹_›, rfl⟩
  · exact .inr ⟨State.inside ‹_›, rfl⟩

theorem hmacFinalEffect_cases (s : State) :
    (s.st ≠ .hmac ∧ hmacFinalEffect s = s.raise .seq s.cw) ∨
    (s.st = .hmac ∧ s.memSize < s.dst.toNat + 20 ∧ hmacFinalEffect s = s.raise .bounds s.cw) ∨
    (s.st = .hmac ∧ s.dst.toNat + 20 ≤ s.memSize ∧ hmacFinalEffect s =
      { s.memWrite s.dst.toNat
          (Sha1.digest (s.sha.finish.outer s.kblk.toList (Sha1.digest s.sha.finish.h)).h) with
        rlen := 20
        sha := (s.sha.finish.outer s.kblk.toList (Sha1.digest s.sha.finish.h)).closed
        kblk := zeroBlock
        st := .idle }) := by
  unfold hmacFinalEffect
  split
  · exact .inl ⟨‹_›, rfl⟩
  · have hst : s.st = .hmac := not_not.1 ‹_›
    split
    · exact .inr (.inl ⟨hst, State.outside ‹_›, rfl⟩)
    · exact .inr (.inr ⟨hst, State.inside ‹_›, rfl⟩)

theorem b32EncEffect_cases (s : State) :
    ((s.memSize < s.src.toNat + s.len.toNat ∨ s.memSize < s.dst.toNat + Base32.textLen s.len.toNat) ∧
      b32EncEffect s = s.raise .bounds s.cw) ∨
    (s.src.toNat + s.len.toNat ≤ s.memSize ∧ s.dst.toNat + Base32.textLen s.len.toNat ≤ s.memSize ∧
      overlap s.src.toNat s.len.toNat s.dst.toNat (Base32.textLen s.len.toNat) = true ∧
      b32EncEffect s = s.raise .overlap s.cw) ∨
    (s.src.toNat + s.len.toNat ≤ s.memSize ∧ s.dst.toNat + Base32.textLen s.len.toNat ≤ s.memSize ∧
      overlap s.src.toNat s.len.toNat s.dst.toNat (Base32.textLen s.len.toNat) = false ∧
      b32EncEffect s =
        { (s.drawn s.len.toNat).memWrite s.dst.toNat (Base32.enc (s.memRead s.src.toNat s.len.toNat)) with
          rlen := BitVec.ofNat 32 (Base32.textLen s.len.toNat) }) := by
  unfold b32EncEffect
  simp only
  split
  · exact .inl ⟨.inl (State.outside ‹_›), rfl⟩
  · split
    · exact .inl ⟨.inr (State.outside ‹_›), rfl⟩
    · split
      · exact .inr (.inl ⟨State.inside ‹_›, State.inside ‹_›, ‹_›, rfl⟩)
      · exact .inr (.inr ⟨State.inside ‹_›, State.inside ‹_›, Bool.eq_false_iff.2 ‹_›, rfl⟩)

theorem b32DecEffect_cases (s : State) :
    ((s.memSize < s.src.toNat + s.len.toNat ∨ s.memSize < s.dst.toNat + Base32.capacity s.len.toNat) ∧
      b32DecEffect s = s.raise .bounds s.cw) ∨
    (s.src.toNat + s.len.toNat ≤ s.memSize ∧ s.dst.toNat + Base32.capacity s.len.toNat ≤ s.memSize ∧
      overlap s.src.toNat s.len.toNat s.dst.toNat (Base32.capacity s.len.toNat) = true ∧
      b32DecEffect s = s.raise .overlap s.cw) ∨
    (s.src.toNat + s.len.toNat ≤ s.memSize ∧ s.dst.toNat + Base32.capacity s.len.toNat ≤ s.memSize ∧
      overlap s.src.toNat s.len.toNat s.dst.toNat (Base32.capacity s.len.toNat) = false ∧
      ((∃ i, Base32.dec (s.memRead s.src.toNat s.len.toNat) = .error i ∧
          b32DecEffect s = (s.drawn s.len.toNat).raise .b32char (BitVec.ofNat 32 i)) ∨
        (∃ y, Base32.dec (s.memRead s.src.toNat s.len.toNat) = .ok y ∧ b32DecEffect s =
          { (s.drawn s.len.toNat).memWrite s.dst.toNat y with rlen := BitVec.ofNat 32 y.length }))) := by
  unfold b32DecEffect
  simp only
  split
  · exact .inl ⟨.inl (State.outside ‹_›), rfl⟩
  · split
    · exact .inl ⟨.inr (State.outside ‹_›), rfl⟩
    · split
      · exact .inr (.inl ⟨State.inside ‹_›, State.inside ‹_›, ‹_›, rfl⟩)
      · refine .inr (.inr ⟨State.inside ‹_›, State.inside ‹_›, Bool.eq_false_iff.2 ‹_›, ?_⟩)
        split
        · exact .inl ⟨_, ‹_›, rfl⟩
        · exact .inr ⟨_, ‹_›, rfl⟩

theorem totpSerEffect_cases (s : State) :
    (s.memSize < s.dst.toNat + 8 ∧ totpSerEffect s = s.raise .bounds s.cw) ∨
    (s.dst.toNat + 8 ≤ s.memSize ∧ totpSerEffect s = { s.memWrite s.dst.toNat (be64 s.cnt) with rlen := 8 }) := by
  unfold totpSerEffect
  split
  · exact .inl ⟨State.outside ‹_›, rfl⟩
  · exact .inr ⟨State.inside ‹_›, rfl⟩

theorem totpTruncEffect_cases (s : State) :
    (s.memSize < s.src.toNat + 20 ∧ totpTruncEffect s = s.raise .bounds s.cw) ∨
    (s.src.toNat + 20 ≤ s.memSize ∧ totpTruncEffect s =
      { s.drawn 20 with value := Totp.trunc (s.memRead s.src.toNat 20) }) := by
  unfold totpTruncEffect
  split
  · exact .inl ⟨State.outside ‹_›, rfl⟩
  · exact .inr ⟨State.inside ‹_›, rfl⟩

theorem totpDigEffect_cases (s : State) :
    (s.memSize < s.dst.toNat + 6 ∧ totpDigEffect s = s.raise .bounds s.cw) ∨
    (s.dst.toNat + 6 ≤ s.memSize ∧ totpDigEffect s =
      { s.memWrite s.dst.toNat (Totp.text s.code) with bcd := Totp.bcdOf s.code, rlen := 6 }) := by
  unfold totpDigEffect
  split
  · exact .inl ⟨State.outside ‹_›, rfl⟩
  · exact .inr ⟨State.inside ‹_›, rfl⟩

theorem totpCmpEffect_cases (s : State) :
    (s.len ≠ 6 ∧ totpCmpEffect s = { s with matched := false }) ∨
    (s.len = 6 ∧ s.memSize < s.src.toNat + 6 ∧ totpCmpEffect s = s.raise .bounds s.cw) ∨
    (s.len = 6 ∧ s.src.toNat + 6 ≤ s.memSize ∧ totpCmpEffect s =
      { s.drawn 6 with
        matched := Totp.allDigits (s.memRead s.src.toNat 6) && Totp.sameDigits s.bcd (s.memRead s.src.toNat 6) }) := by
  unfold totpCmpEffect
  split
  · exact .inl ⟨‹_›, rfl⟩
  · have hl : s.len = 6 := not_not.1 ‹_›
    split
    · exact .inr (.inl ⟨hl, State.outside ‹_›, rfl⟩)
    · exact .inr (.inr ⟨hl, State.inside ‹_›, rfl⟩)

end Sys2Proof.Machine
end

