-- ==== Sys2Proof/Laws/Sha1.lean ====
section
/-! SUPPORT. The laws of the SHA-1 unit: lengths, the digest and its words, and what the stream context holds after a message
has been absorbed (spec/40_sha1.md R154, R155). -/

namespace Sys2Proof.Machine

@[simp] theorem Sha1.length_digest (h : Vector Word 5) : (Sha1.digest h).length = 20 := rfl

@[simp] theorem Sha1.length_hash (m : List Byte) : (Sha1.hash m).length = 20 := rfl

theorem Sha1.length_pad (r : Nat) (l : DWord) : (Sha1.pad r l).length = 9 + (119 - r) % 64 := by
  simp [Sha1.pad]; omega

theorem fromBe32_be32 (v : Word) (rest : List Byte) : fromBe32 (be32 v ++ rest) = v := by
  have split4 : ∀ n : Nat, n < 4294967296 →
      n / 16777216 % 256 * 16777216 + n / 65536 % 256 * 65536 + n / 256 % 256 * 256 + n % 256 = n := by
    intro n hn; omega
  have hv := split4 v.toNat v.isLt
  apply BitVec.eq_of_toNat_eq
  rw [toNat_fromBe32]
  simp only [be32, List.cons_append, List.nil_append, List.getD_cons_zero, List.getD_cons_succ, BitVec.extractLsb'_toNat,
    Nat.shiftRight_eq_div_pow, Nat.reducePow, Nat.div_one, hv]

theorem fromBe32_be32_self (v : Word) : fromBe32 (be32 v) = v := by
  simpa only [List.append_nil] using fromBe32_be32 v []

theorem drop_be32 (v : Word) (rest : List Byte) (n : Nat) : (be32 v ++ rest).drop (4 + n) = rest.drop n := by
  rw [← List.drop_drop, List.drop_left' (length_be32 v)]

/-- The words of a digest are the chaining words it was made from (R103, R153). -/
@[simp] theorem Sha1.digestWords_digest (h : Vector Word 5) : Sha1.digestWords (Sha1.digest h) = h := by
  have d : ∀ n, (Sha1.digest h).drop (4 * n) =
      (be32 h[0] ++ (be32 h[1] ++ (be32 h[2] ++ (be32 h[3] ++ be32 h[4])))).drop (4 * n) := by
    intro n; simp only [Sha1.digest, List.append_assoc]
  ext1 i hi
  simp only [Sha1.digestWords, Vector.getElem_ofFn, d]
  match i, hi with
  | 0, _ => exact fromBe32_be32 _ _
  | 1, _ => rw [drop_be32 _ _ 0]; exact fromBe32_be32 _ _
  | 2, _ => rw [drop_be32 _ _ 4, drop_be32 _ _ 0]; exact fromBe32_be32 _ _
  | 3, _ => rw [drop_be32 _ _ 8, drop_be32 _ _ 4, drop_be32 _ _ 0]; exact fromBe32_be32 _ _
  | 4, _ =>
    rw [drop_be32 _ _ 12, drop_be32 _ _ 8, drop_be32 _ _ 4, drop_be32 _ _ 0]; exact fromBe32_be32_self _

@[simp] theorem Sha1Unit.compress_h (u : Sha1Unit) (b : List Byte) : (u.compress b).h = Sha1.compress u.h b := rfl

@[simp] theorem Sha1Unit.compress_mlen (u : Sha1Unit) (b : List Byte) : (u.compress b).mlen = u.mlen := rfl

@[simp] theorem Sha1Unit.compress_buf (u : Sha1Unit) (b : List Byte) : (u.compress b).buf = u.buf := rfl

theorem Sha1Unit.foldl_compress_h (u : Sha1Unit) (bs : List (List Byte)) :
    (bs.foldl Sha1Unit.compress u).h = bs.foldl Sha1.compress u.h := by
  induction bs generalizing u with
  | nil => rfl
  | cons b bs ih => simp [ih]

/-- After at least one compression, the working storage depends on the chaining value and the blocks alone. -/
theorem Sha1Unit.foldl_compress_work {u v : Sha1Unit} (h : u.h = v.h) {bs : List (List Byte)} (hb : bs ≠ []) :
    (bs.foldl Sha1Unit.compress u).work = (bs.foldl Sha1Unit.compress v).work := by
  induction bs generalizing u v with
  | nil => exact absurd rfl hb
  | cons b bs ih =>
    rw [List.foldl_cons, List.foldl_cons]
    by_cases hbs : bs = []
    · subst hbs; simp [Sha1Unit.compress, h]
    · exact ih (by simp [h]) hbs

/-- `H` after the one-shot hash holds the digest words (R148, R153). -/
theorem Sha1Unit.hash_h (u : Sha1Unit) (m : List Byte) :
    (u.hash m).h = (Sha1.blocks m).foldl Sha1.compress Sha1.iv := by
  simp [Sha1Unit.hash, Sha1Unit.foldl_compress_h]

theorem bufCount_ofNat (n : Nat) : (bufCount (BitVec.ofNat 64 (8 * n))).val = n % 64 := by
  simp only [bufCount, BitVec.extractLsb', BitVec.ofNat, Fin.Internal.ofNat]
  simp only [Nat.shiftRight_eq_div_pow, BitVec.toNat]
  omega

/-- The context `H`, `MLEN`, `BUF` is that of a stream into which exactly `m` has been absorbed (R154): the full blocks are in
`H`, the rest is in `BUF`, and the length is counted in bits. -/
structure Sha1Unit.Holds (u : Sha1Unit) (m : List Byte) : Prop where
  chain : u.h = (chunks 64 (m.length / 64) m).foldl Sha1.compress Sha1.iv
  count : u.mlen = BitVec.ofNat 64 (8 * m.length)
  tail : u.buf.toList.take (m.length % 64) = m.drop (64 * (m.length / 64))

theorem Sha1Unit.Holds.bufCount_val {u : Sha1Unit} {m : List Byte} (hu : u.Holds m) :
    (bufCount u.mlen).val = m.length % 64 := by rw [hu.count, bufCount_ofNat]

theorem Sha1Unit.holds_opened (u : Sha1Unit) : u.opened.Holds [] := ⟨rfl, rfl, rfl⟩

theorem Sha1Unit.Holds.absorbByte {u : Sha1Unit} {m : List Byte} (hu : u.Holds m) (x : Byte) :
    (u.absorbByte x).Holds (m ++ [x]) := by
  have hc := hu.bufCount_val
  have hlen : u.mlen + 8 = BitVec.ofNat 64 (8 * (m ++ [x]).length) := by
    rw [hu.count, List.length_append, List.length_singleton, Nat.mul_add, BitVec.ofNat_add]; rfl
  have hc' : (bufCount (u.mlen + 8)).val = (m.length + 1) % 64 := by
    rw [hlen, bufCount_ofNat, List.length_append, List.length_singleton]
  have hbuf : (u.buf.set (bufCount u.mlen) x).toList.take (m.length % 64 + 1) =
      m.drop (64 * (m.length / 64)) ++ [x] := by
    rw [Vector.toList_set, hc, List.take_add_one, List.take_set_of_le (Nat.le_refl _), hu.tail,
      List.getElem?_set_self (by simp; omega)]
    rfl
  unfold Sha1Unit.absorbByte
  by_cases hz : bufCount (u.mlen + 8) = 0
  · have hz' : (m.length + 1) % 64 = 0 := by rw [← hc', hz]; rfl
    have hq : (m.length + 1) / 64 = m.length / 64 + 1 := by omega
    have hfull : (u.buf.set (bufCount u.mlen) x).toList = m.drop (64 * (m.length / 64)) ++ [x] := by
      rw [← hbuf, List.take_of_length_le (by simp; omega)]
    simp only [hz, if_true]
    refine ⟨?_, ?_, ?_⟩
    · rw [Sha1Unit.compress_h, hu.chain, hfull, List.length_append, List.length_singleton, hq, chunks_add,
        chunks_append_left 64 _ _ (by omega), List.foldl_append, chunks_one,
        List.drop_append_of_le_length (by omega), List.take_of_length_le (by simp; omega)]
      rfl
    · rw [Sha1Unit.compress_mlen]; exact hlen
    · rw [List.length_append, List.length_singleton, hz', hq, List.take_zero,
        List.drop_eq_nil_of_le (by simp; omega)]
  · have hz' : (m.length + 1) % 64 ≠ 0 := by
      intro h; exact hz (Fin.ext (by rw [hc', h]; rfl))
    have hq : (m.length + 1) / 64 = m.length / 64 := by omega
    have hr : (m.length + 1) % 64 = m.length % 64 + 1 := by omega
    simp only [hz, if_false]
    refine ⟨?_, hlen, ?_⟩
    · rw [List.length_append, List.length_singleton, hq, chunks_append_left 64 _ _ (by omega)]; exact hu.chain
    · rw [List.length_append, List.length_singleton, hq, hr, List.drop_append_of_le_length (by omega)]; exact hbuf

/-- `Absorb` appends to the message the context holds (R154). -/
theorem Sha1Unit.Holds.absorb {u : Sha1Unit} {m : List Byte} (hu : u.Holds m) (xs : List Byte) :
    (u.absorb xs).Holds (m ++ xs) := by
  induction xs generalizing u m with
  | nil => rw [List.append_nil]; exact hu
  | cons x xs ih => rw [List.append_cons]; exact ih (hu.absorbByte x)

theorem Sha1.length_padded (m : List Byte) :
    (Sha1.padded m).length = 64 * (m.length / 64) + (m.length % 64 + (Sha1.pad (m.length % 64) 0).length) := by
  simp [Sha1.padded, Sha1.length_pad]; omega

/-- The text that `Finish` compresses is one block when at most 55 bytes are buffered, else two (R142, R155). -/
theorem Sha1Unit.length_lastBlocks (u : Sha1Unit) :
    u.lastBlocks.length = if (bufCount u.mlen).val < 56 then 64 else 128 := by
  have := (bufCount u.mlen).isLt
  simp only [Sha1Unit.lastBlocks, List.length_append, List.length_take, Vector.length_toList, Sha1.length_pad]
  split <;> omega

theorem Sha1Unit.finish_eq_foldl (u : Sha1Unit) :
    u.finish = (chunks 64 (u.lastBlocks.length / 64) u.lastBlocks).foldl Sha1Unit.compress u := by
  rw [Sha1Unit.length_lastBlocks]
  unfold Sha1Unit.finish
  split <;> rfl

/-- The blocks of the padded message are its full blocks and then those that `Finish` compresses (R157). -/
theorem Sha1Unit.Holds.blocks_eq {u : Sha1Unit} {m : List Byte} (hu : u.Holds m) :
    Sha1.blocks m = chunks 64 (m.length / 64) m ++ chunks 64 (u.lastBlocks.length / 64) u.lastBlocks := by
  have htail : (Sha1.padded m).drop (64 * (m.length / 64)) = u.lastBlocks := by
    rw [Sha1.padded, List.drop_append_of_le_length (by omega), Sha1Unit.lastBlocks, hu.bufCount_val, hu.tail, hu.count]
  have hn : (Sha1.padded m).length / 64 = m.length / 64 + u.lastBlocks.length / 64 := by
    have h1 := Sha1.length_padded m
    rw [← htail, List.length_drop]; omega
  rw [Sha1.blocks, hn, chunks_add, htail, Sha1.padded, chunks_append_left 64 _ _ (by omega)]

/-- `Finish` leaves the digest words of the message absorbed (R155, R157). -/
theorem Sha1Unit.Holds.finish_h {u : Sha1Unit} {m : List Byte} (hu : u.Holds m) :
    u.finish.h = (Sha1.blocks m).foldl Sha1.compress Sha1.iv := by
  rw [Sha1Unit.finish_eq_foldl, Sha1Unit.foldl_compress_h, hu.blocks_eq, List.foldl_append, ← hu.chain]

theorem Sha1Unit.Holds.digest_finish {u : Sha1Unit} {m : List Byte} (hu : u.Holds m) :
    Sha1.digest u.finish.h = Sha1.hash m := by rw [hu.finish_h, Sha1.hash]

/-- `Finish` leaves in the working storage what the one-shot hash leaves there. -/
theorem Sha1Unit.Holds.finish_work {u : Sha1Unit} {m : List Byte} (hu : u.Holds m) (v : Sha1Unit) :
    u.finish.work = (v.hash m).work := by
  have hlen := u.length_lastBlocks
  rw [Sha1Unit.finish_eq_foldl, Sha1Unit.hash, hu.blocks_eq, List.foldl_append]
  refine Sha1Unit.foldl_compress_work ?_ ?_
  · rw [Sha1Unit.foldl_compress_h]; exact hu.chain
  · intro h
    have := congrArg List.length h
    rw [length_chunks, List.length_nil] at this
    split at hlen <;> omega

@[simp] theorem Sha1Unit.finish_mlen (u : Sha1Unit) : u.finish.mlen = u.mlen := by
  unfold Sha1Unit.finish; split <;> rfl

@[simp] theorem Sha1Unit.finish_buf (u : Sha1Unit) : u.finish.buf = u.buf := by
  unfold Sha1Unit.finish; split <;> rfl

/-- `Absorb` counts eight bits a byte (R154). -/
theorem Sha1Unit.absorb_mlen (u : Sha1Unit) (xs : List Byte) :
    (u.absorb xs).mlen = u.mlen + BitVec.ofNat 64 (8 * xs.length) := by
  induction xs generalizing u with
  | nil => simp [Sha1Unit.absorb]
  | cons x xs ih =>
    have hx : (u.absorbByte x).mlen = u.mlen + BitVec.ofNat 64 (8 * 1) := by
      simp only [Sha1Unit.absorbByte]; split <;> rfl
    show ((u.absorbByte x).absorb xs).mlen = _
    rw [ih, hx, List.length_cons, Nat.mul_add, BitVec.ofNat_add, BitVec.add_assoc,
      BitVec.add_comm (BitVec.ofNat 64 (8 * xs.length))]

/-! ### The schedule, newest word first -/

theorem Sha1.expand_append (n : Nat) (ws : List Word) : ∃ l, Sha1.expand n ws = l ++ ws ∧ l.length = n := by
  induction n generalizing ws with
  | zero => exact ⟨[], rfl, rfl⟩
  | succ n ih =>
    obtain ⟨l, hl, hn⟩ := ih (Sha1.nextWord ws :: ws)
    exact ⟨l ++ [Sha1.nextWord ws], by rw [Sha1.expand, hl]; simp, by simp [hn]⟩

theorem Sha1.expand_succ (n : Nat) (ws : List Word) :
    Sha1.expand (n + 1) ws = Sha1.nextWord (Sha1.expand n ws) :: Sha1.expand n ws := by
  induction n generalizing ws with
  | zero => rfl
  | succ n ih => rw [Sha1.expand, ih]; rfl

@[simp] theorem Sha1.length_schedule (blk : List Byte) : (Sha1.schedule blk).length = 80 := by
  obtain ⟨l, hl, hn⟩ := Sha1.expand_append 64 (Sha1.blockWords blk).reverse
  rw [Sha1.schedule, hl]
  simp [hn, Sha1.blockWords]

theorem rotl_eq (x : Word) {n : Nat} (h : n < 32) : rotl x n = x.rotateLeft n := by
  unfold rotl; rw [BitVec.rotateLeft_def, Nat.mod_eq_of_lt h]

theorem bufCount_val (m : DWord) : (bufCount m).val = m.toNat / 8 % 64 := by
  simp only [bufCount, BitVec.extractLsb', BitVec.ofNat, Fin.Internal.ofNat, Nat.shiftRight_eq_div_pow, BitVec.toNat]

/-! ### The rounds, one at a time -/

theorem Sha1.rounds_append (t : Nat) (xs ys : List Word) (v : Working) :
    Sha1.rounds t (xs ++ ys) v = Sha1.rounds (t + xs.length) ys (Sha1.rounds t xs v) := by
  induction xs generalizing t v with
  | nil => rfl
  | cons x xs ih => rw [List.cons_append, Sha1.rounds, ih, Sha1.rounds, List.length_cons]; congr 1; omega

theorem Sha1.rounds_take_succ (ws : List Word) (x : Working) {t : Nat} (h : t < ws.length) :
    Sha1.rounds 0 (ws.take (t + 1)) x = Sha1.step t (Sha1.rounds 0 (ws.take t) x) (ws.getD t 0) := by
  rw [List.take_succ_eq_append_getElem h, Sha1.rounds_append]
  simp only [Sha1.rounds, List.length_take, Nat.zero_add]
  rw [Nat.min_eq_left (by omega), List.getD_eq_getElem?_getD, List.getElem?_eq_getElem h, Option.getD_some]

/-- The working words after each of the rounds over `ws` (R147). -/
theorem Sha1.rounds_trace (ws : List Word) (x : Working) : ∃ v : Nat → Working, v 0 = x ∧
    (∀ t, t < ws.length → v (t + 1) = Sha1.step t (v t) (ws.getD t 0)) ∧ v ws.length = Sha1.rounds 0 ws x :=
  ⟨fun t => Sha1.rounds 0 (ws.take t) x, rfl, fun _ ht => Sha1.rounds_take_succ ws x ht, by
    simp only [List.take_length]⟩

end Sys2Proof.Machine
end

