-- ==== Sys2Proof/Laws/Hmac.lean ====
section
/-! SUPPORT. The laws of the HMAC wrapper: the key block is one block (spec/41_hmac.md R181), and what the outer hash of
`HMAC.FINAL` has absorbed (R185). -/

namespace Sys2Proof.Machine

theorem toList_toBlock {l : List Byte} (h : l.length = 64) : (toBlock l).toList = l := by
  apply List.ext_getElem
  · simp [h]
  · intro i h1 h2
    simp [toBlock, List.getD_eq_getElem?_getD, h2]

theorem Hmac.length_shortKey (key : List Byte) : (Hmac.shortKey key).length ≤ 64 := by
  unfold Hmac.shortKey; split
  · simp
  · omega

/-- R181: 64 bytes. -/
@[simp] theorem Hmac.length_keyBlock (key : List Byte) : (Hmac.keyBlock key).length = 64 := by
  have := Hmac.length_shortKey key
  simp [Hmac.keyBlock]; omega

@[simp] theorem Hmac.length_ipad (kb : List Byte) : (Hmac.ipad kb).length = kb.length := by simp [Hmac.ipad]
@[simp] theorem Hmac.length_opad (kb : List Byte) : (Hmac.opad kb).length = kb.length := by simp [Hmac.opad]

/-- The outer hash of R185 has absorbed the outer pad and the inner digest. -/
theorem Hmac.outer_holds (u : Sha1Unit) (kb inner : List Byte) :
    ((({ u with h := Sha1.iv, mlen := 0 } : Sha1Unit).absorb (Hmac.opad kb)).absorb inner).Holds
      (Hmac.opad kb ++ inner) :=
  have : ({ u with h := Sha1.iv, mlen := 0 } : Sha1Unit).Holds [] := ⟨rfl, rfl, rfl⟩
  (this.absorb _).absorb _

end Sys2Proof.Machine
end

