-- ==== Sys2Proof/Laws/Memory.lean ====
section
/-! SUPPORT. The laws of the scratchpad: what a byte reads as after a write, and that every operation keeps the canonical
form and the address range. -/

namespace Sys2Proof.Machine

theorem Memory.get?_nil (a : Nat) : Memory.get? [] a = none := rfl

theorem Memory.get?_set_self (m : Memory) (a : Nat) (x : Byte) : (Memory.set m a x).get? a = some x := by
  induction m with
  | nil => simp [Memory.set, Memory.get?]
  | cons c m ih =>
    obtain ⟨k, b⟩ := c
    unfold Memory.set
    split
    · simp [Memory.get?]
    · split
      · simp [Memory.get?]
      · rename_i h; simp [Memory.get?, h, ih]

theorem Memory.get?_set_ne (m : Memory) {a b : Nat} (x : Byte) (h : b ≠ a) :
    (Memory.set m a x).get? b = m.get? b := by
  induction m with
  | nil => simp [Memory.set, Memory.get?, h]
  | cons c m ih =>
    obtain ⟨k, y⟩ := c
    unfold Memory.set
    split
    · simp [Memory.get?, h]
    · split
      · rename_i hk; subst hk; simp [Memory.get?, h]
      · simp [Memory.get?, ih]

/-- R72: `MemWrite` sets `MEM[addr+i] <- v[i]` and changes no other byte. -/
theorem Memory.get?_write (m : Memory) (a : Nat) (v : List Byte) (b : Nat) :
    (Memory.write m a v).get? b = if a ≤ b ∧ b < a + v.length then v[b - a]? else m.get? b := by
  induction v generalizing m a with
  | nil => rw [if_neg (by simp only [List.length_nil]; omega)]; rfl
  | cons x xs ih =>
    simp only [Memory.write, ih, List.length_cons]
    by_cases hb : b = a
    · subst hb
      rw [if_neg (by omega), if_pos (by omega), Memory.get?_set_self]; simp
    · rw [Memory.get?_set_ne m x hb]
      by_cases h : a + 1 ≤ b ∧ b < a + 1 + xs.length
      · rw [if_pos h, if_pos (by omega), show b - a = (b - (a + 1)) + 1 by omega, List.getElem?_cons_succ]
      · rw [if_neg h, if_neg (by omega)]

theorem Memory.get?_zeroed (n a : Nat) : (Memory.zeroed n).get? a = if a < n then some 0 else none := by
  have key : ∀ l : List Nat, Memory.get? (l.map fun k => (k, (0 : Byte))) a = if a ∈ l then some 0 else none := by
    intro l
    induction l with
    | nil => simp [Memory.get?]
    | cons k l ih =>
      by_cases h : a = k
      · simp [Memory.get?, h]
      · simpa [Memory.get?, h] using ih
  simpa [Memory.zeroed] using key (List.range n)

theorem Memory.mem_set {m : Memory} {a : Nat} {x : Byte} {c : Host.Cell} (h : c ∈ Memory.set m a x) :
    c.1 = a ∨ c ∈ m := by
  induction m with
  | nil => simp only [Memory.set, List.mem_singleton] at h; simp [h]
  | cons d m ih =>
    obtain ⟨k, b⟩ := d
    unfold Memory.set at h
    split at h
    · rcases List.mem_cons.1 h with rfl | h
      · exact .inl rfl
      · exact .inr h
    · split at h
      · rcases List.mem_cons.1 h with rfl | h
        · exact .inl rfl
        · exact .inr (List.mem_cons_of_mem _ h)
      · rcases List.mem_cons.1 h with rfl | h
        · exact .inr (List.mem_cons_self ..)
        · exact (ih h).imp id (List.mem_cons_of_mem _)

theorem Memory.wf_set {m : Memory} (hm : m.wf) (a : Nat) (x : Byte) : (Memory.set m a x).wf := by
  induction m with
  | nil => simp [Memory.set, Memory.wf]
  | cons c m ih =>
    obtain ⟨k, b⟩ := c
    obtain ⟨hk, hm'⟩ := List.pairwise_cons.1 hm
    unfold Memory.set
    split
    · rename_i hlt
      refine List.pairwise_cons.2 ⟨fun d hd => ?_, hm⟩
      rcases List.mem_cons.1 hd with rfl | hd
      · exact hlt
      · exact Nat.lt_trans hlt (hk d hd)
    · split
      · rename_i heq; subst heq; exact List.pairwise_cons.2 ⟨hk, hm'⟩
      · rename_i h1 h2
        refine List.pairwise_cons.2 ⟨fun d hd => ?_, ih hm'⟩
        rcases Memory.mem_set hd with hd | hd
        · show k < d.1; omega
        · exact hk d hd

theorem Memory.below_set {m : Memory} {n : Nat} (hm : m.below n) {a : Nat} (x : Byte) (ha : a < n) :
    (Memory.set m a x).below n := by
  intro c hc
  rcases Memory.mem_set hc with h | h
  · omega
  · exact hm c h

theorem Memory.wf_write {m : Memory} (hm : m.wf) (a : Nat) (v : List Byte) : (Memory.write m a v).wf := by
  induction v generalizing m a with
  | nil => exact hm
  | cons x xs ih => exact ih (Memory.wf_set hm a x) (a + 1)

theorem Memory.below_write {m : Memory} {n : Nat} (hm : m.below n) {a : Nat} {v : List Byte} (h : a + v.length ≤ n) :
    (Memory.write m a v).below n := by
  induction v generalizing m a with
  | nil => exact hm
  | cons x xs ih =>
    simp only [List.length_cons] at h
    exact ih (Memory.below_set hm x (by omega)) (by omega)

theorem Memory.wf_zeroed (n : Nat) : (Memory.zeroed n).wf := by
  unfold Memory.wf Memory.zeroed
  rw [List.pairwise_map]
  exact List.pairwise_lt_range

theorem Memory.below_zeroed (n : Nat) : (Memory.zeroed n).below n := by
  intro c hc
  simp only [Memory.zeroed, List.mem_map, List.mem_range] at hc
  obtain ⟨a, ha, rfl⟩ := hc
  exact ha

/-- `MemRead(addr, n)` has `n` bytes (R72). -/
@[simp] theorem State.length_memRead (s : State) (addr n : Nat) : (s.memRead addr n).length = n := by
  simp [State.memRead]

/-- A byte that has been written reads as the value last written (R70). -/
theorem State.memByte_of_written {s : State} {a i : Nat} {x : Byte} (h : s.mem.get? a = some x) :
    s.memByte a i = x := by simp [State.memByte, h]

theorem State.getElem?_memRead (s : State) (addr n i : Nat) (h : i < n) :
    (s.memRead addr n)[i]? = some (s.memByte (addr + i) i) := by
  simp [State.memRead, h]

end Sys2Proof.Machine
end

