-- ==== Sys2Proof/Laws/PerInstr.lean ====
section
/-! SUPPORT. The family `Encoding` of statements made per instruction: each command's word is legal, is the word of
spec/30_encoding.md R121, and decodes to the command (R120, R123, R124). -/

namespace Sys2Proof.Laws.Encoding

/-- A command is well-formed, its word has a zero `ZERO` field and is legal, and the decoder gives the command back. -/
def Statement (i : Instr) : Prop :=
  i.wellFormed = true ∧ zeroField (encode i) = 0 ∧ legalWord (encode i) = true ∧ decode (encode i) = .ok i

theorem nop : Statement .nop := by unfold Statement; decide
theorem sysZero : Statement .sysZero := by unfold Statement; decide
theorem sha1Init : Statement .sha1Init := by unfold Statement; decide
theorem sha1Update : Statement .sha1Update := by unfold Statement; decide
theorem sha1Final : Statement .sha1Final := by unfold Statement; decide
theorem sha1Block : Statement .sha1Block := by unfold Statement; decide
theorem sha1Hash : Statement .sha1Hash := by unfold Statement; decide
theorem hmacMac : Statement .hmacMac := by unfold Statement; decide
theorem hmacInit : Statement .hmacInit := by unfold Statement; decide
theorem hmacFinal : Statement .hmacFinal := by unfold Statement; decide
theorem b32Enc : Statement .b32Enc := by unfold Statement; decide
theorem b32Dec : Statement .b32Dec := by unfold Statement; decide
theorem totpCtr : Statement .totpCtr := by unfold Statement; decide
theorem totpSer : Statement .totpSer := by unfold Statement; decide
theorem totpTrunc : Statement .totpTrunc := by unfold Statement; decide
theorem totpMod : Statement .totpMod := by unfold Statement; decide
theorem totpDig : Statement .totpDig := by unfold Statement; decide
theorem totpCmp : Statement .totpCmp := by unfold Statement; decide

end Sys2Proof.Laws.Encoding
end

