-- ==== Sys2Proof/Laws/Port.lean ====
section
/-! SUPPORT. The laws of the host port: the register halves and `PARAM` as sums (spec/20_memory.md R76, R78, R79) and the
pointer `MADDR` (spec/10_state.md R35). -/

namespace Sys2Proof.Machine

theorem lowWord_eq (v : DWord) : lowWord v = BitVec.ofNat 32 v.toNat := by
  apply BitVec.eq_of_toNat_eq; simp [lowWord]

theorem highWord_eq (v : DWord) : highWord v = BitVec.ofNat 32 (v.toNat / 2 ^ 32) := by
  apply BitVec.eq_of_toNat_eq; simp [highWord, Nat.shiftRight_eq_div_pow]

theorem toNat_withLow (v : DWord) (w : Word) : (withLow v w).toNat = v.toNat / 2 ^ 32 * 2 ^ 32 + w.toNat := by
  simp only [withLow, highWord, toNat_append_eq, BitVec.extractLsb'_toNat, Nat.shiftRight_eq_div_pow]
  have := v.isLt
  omega

theorem toNat_withHigh (v : DWord) (w : Word) : (withHigh v w).toNat = w.toNat * 2 ^ 32 + v.toNat % 2 ^ 32 := by
  simp only [withHigh, lowWord, toNat_append_eq, BitVec.extractLsb'_toNat, Nat.shiftRight_zero]

/-- R28, R76. -/
theorem Config.paramWord_eq (c : Config) : Config.paramWord c = BitVec.ofNat 32 (0x40001E06 + c.aw * 2 ^ 16) := by
  have : c.aw ≤ 16 := by unfold Config.aw; omega
  apply BitVec.eq_of_toNat_eq
  simp only [Config.paramWord, toNat_append_eq, BitVec.toNat_ofNat]
  omega

/-- A pointer reduced modulo `MEMSZ` fits the 16 bits it is held in (R35). -/
theorem State.toNat_pointer (s : State) (n : Nat) :
    (BitVec.ofNat 16 (n % s.memSize)).toNat = n % s.memSize := by
  have h1 := s.cfg.memSize_le
  have h2 := s.cfg.le_memSize
  have h3 := Nat.mod_lt n (show 0 < s.memSize by unfold State.memSize; omega)
  rw [BitVec.toNat_ofNat, Nat.mod_eq_of_lt]
  unfold State.memSize at *
  omega

end Sys2Proof.Machine
end

