-- ==== Sys2Proof/Laws/Step.lean ====
section
/-! SUPPORT. The laws of a step: whose turn it is (spec/44_system.md R270), what every command's effect leaves alone (R275)
and how it can fail (spec/60_exceptions.md R291, R299), and the small steps of keeping the invariants. -/

namespace Sys2Proof.Machine

/-- R270: on the sequencer's turn the step is the sequencer's. -/
theorem step_seqTurn {s : State} {rest : List Event} (h : SeqTurn s rest) :
    step s = seqStep { s with agenda := rest } := by
  obtain ⟨hb, ⟨h1, rfl⟩ | h1 | ⟨a, tl, h1, ha, rfl⟩ | ⟨a, w, tl, h1, rfl⟩⟩ := h
  · have : { s with agenda := [] } = s := by rw [← h1]
    rw [this]; unfold step advance; rw [h1]; exact if_pos hb
  · unfold step advance; rw [h1]; exact if_pos hb
  · have hr : s.readReady a = false := by simpa [State.readReady, hb, Reg.index] using ha
    show _ = seqStep s
    unfold step advance; rw [h1]; exact if_neg (by simp [hr])
  · have hr : s.writeReady = false := by simp [State.writeReady, hb]
    show _ = seqStep s
    unfold step advance; rw [h1]; exact if_neg (by simp [hr])

/-- What a host can always rely on after a command's effect (R275). -/
theorem effect_keeps (i : Instr) (s : State) :
    (effectOf i s).cw = s.cw ∧ (effectOf i s).agenda = s.agenda ∧ (effectOf i s).cfg = s.cfg ∧
    (effectOf i s).rdata = s.rdata ∧ (effectOf i s).ieDone = s.ieDone ∧ (effectOf i s).ieErr = s.ieErr ∧
    (effectOf i s).src = s.src ∧ (effectOf i s).len = s.len ∧ (effectOf i s).dst = s.dst ∧
    (effectOf i s).keya = s.keya ∧ (effectOf i s).keyl = s.keyl ∧ (effectOf i s).maddr = s.maddr ∧
    (effectOf i s).now = s.now ∧ (effectOf i s).offs = s.offs ∧
    (i ≠ .totpCtr → i ≠ .sysZero → (effectOf i s).cnt = s.cnt) := by
  cases i <;> simp only [effectOf]
  case nop => simp [nopEffect]
  case sysZero => simp [sysZeroEffect]
  case sha1Init => simp [sha1InitEffect]
  case sha1Update => rcases sha1UpdateEffect_cases s with h | h | h <;> simp [h]
  case sha1Final => rcases sha1FinalEffect_cases s with h | h | h <;> simp [h]
  case sha1Block => rcases sha1BlockEffect_cases s with h | h <;> simp [h]
  case sha1Hash => rcases sha1HashEffect_cases s with h | h <;> simp [h, State.deliver]
  case hmacMac => rcases hmacMacEffect_cases s with h | h <;> simp [h, State.deliver]
  case hmacInit => rcases hmacInitEffect_cases s with h | h <;> simp [h]
  case hmacFinal => rcases hmacFinalEffect_cases s with h | h | h <;> simp [h]
  case b32Enc => rcases b32EncEffect_cases s with h | h | h <;> simp [h]
  case b32Dec => rcases b32DecEffect_cases s with h | h | ⟨_, _, _, ⟨_, _, h⟩ | ⟨_, _, h⟩⟩ <;> simp [h]
  case totpCtr => simp [totpCtrEffect]
  case totpSer => rcases totpSerEffect_cases s with h | h <;> simp [h]
  case totpTrunc => rcases totpTruncEffect_cases s with h | h <;> simp [h]
  case totpMod => simp [totpModEffect]
  case totpDig => rcases totpDigEffect_cases s with h | h <;> simp [h]
  case totpCmp => rcases totpCmpEffect_cases s with h | h | h <;> simp [h]

/-- Everything an effect can do to the error record, with the order of the checks (R291, R299): nothing, or one `raise`. -/
theorem effect_err (i : Instr) (s : State) :
    ((effectOf i s).err = s.err ∧ (effectOf i s).errcode = s.errcode ∧ (effectOf i s).einfo = s.einfo ∧
      ¬ OutOfSequence s i ∧ ∀ o ∈ checkedOperands s i, o.1.toNat + o.2 ≤ s.memSize) ∨
    (OutOfSequence s i ∧ effectOf i s = s.raise .seq s.cw ∧ .seq ∈ raisable i) ∨
    (¬ OutOfSequence s i ∧ (∃ o ∈ checkedOperands s i, s.memSize < o.1.toNat + o.2) ∧
      effectOf i s = s.raise .bounds s.cw ∧ .bounds ∈ raisable i) ∨
    (¬ OutOfSequence s i ∧ (∀ o ∈ checkedOperands s i, o.1.toNat + o.2 ≤ s.memSize) ∧
      (effectOf i s = s.raise .overlap s.cw ∧ .overlap ∈ raisable i ∨
        ∃ k n, effectOf i s = (s.drawn n).raise .b32char k ∧ i = .b32Dec)) := by
  cases i <;> simp only [effectOf, OutOfSequence]
  case nop => simp [nopEffect, checkedOperands]
  case sysZero => simp [sysZeroEffect, checkedOperands]
  case sha1Init => simp [sha1InitEffect, checkedOperands]
  case sha1Update => rcases sha1UpdateEffect_cases s with h | h | h <;> simp [h, checkedOperands, raisable]
  case sha1Final => rcases sha1FinalEffect_cases s with h | h | h <;> simp [h, checkedOperands, raisable]
  case sha1Block => rcases sha1BlockEffect_cases s with h | h <;> simp [h, checkedOperands, raisable]
  case sha1Hash => rcases sha1HashEffect_cases s with h | h <;> simp [h, State.deliver, checkedOperands, raisable]
  case hmacMac => rcases hmacMacEffect_cases s with h | h <;> simp [h, State.deliver, checkedOperands, raisable]
  case hmacInit => rcases hmacInitEffect_cases s with h | h <;> simp [h, checkedOperands, raisable]
  case hmacFinal => rcases hmacFinalEffect_cases s with h | h | h <;> simp [h, checkedOperands, raisable]
  case b32Enc =>
    have : ∀ n, Base32.textLen n = 8 * ((n + 4) / 5) := fun _ => rfl
    rcases b32EncEffect_cases s with h | h | h <;> simp [← this, h, checkedOperands, raisable]
  case b32Dec =>
    have : ∀ n, Base32.capacity n = 5 * n / 8 := fun _ => rfl
    rcases b32DecEffect_cases s with h | h | ⟨h1, h2, _, ⟨_, _, h⟩ | ⟨_, _, h⟩⟩ <;>
      simp only [← this, checkedOperands, raisable]
    · simp [h]
    · simp [h]
    · right; right; right; exact ⟨by simp, by simp [h1, h2], .inr ⟨_, _, h, by trivial⟩⟩
    · left; simp [h, h1, h2]
  case totpCtr => simp [totpCtrEffect, checkedOperands]
  case totpSer => rcases totpSerEffect_cases s with h | h <;> simp [h, checkedOperands, raisable]
  case totpTrunc => rcases totpTruncEffect_cases s with h | h <;> simp [h, checkedOperands, raisable]
  case totpMod => simp [totpModEffect, checkedOperands]
  case totpDig => rcases totpDigEffect_cases s with h | h <;> simp [h, checkedOperands, raisable]
  case totpCmp =>
    rcases totpCmpEffect_cases s with ⟨hl, h⟩ | h | h
    · left; rw [h]; exact ⟨rfl, rfl, rfl, by simp, by simp only [checkedOperands, if_neg hl]; simp⟩
    · simp [h, checkedOperands, raisable]
    · simp [h, checkedOperands, raisable]

/-! ### The scratchpad in the terms of Safety -/

theorem stored_write (m : Memory) (a : Nat) (v : List Byte) : Stored m a v (m.write a v) :=
  fun x => Memory.get?_write m a v x

/-- Reading back what has been written (R70, R72). -/
theorem State.memRead_of_written {s : State} {a : Nat} {v : List Byte}
    (h : ∀ i, i < v.length → s.mem.get? (a + i) = v[i]?) : s.memRead a v.length = v := by
  apply List.ext_getElem?
  intro i
  by_cases hi : i < v.length
  · rw [State.getElem?_memRead _ _ _ _ hi, List.getElem?_eq_getElem hi]
    congr 1
    apply State.memByte_of_written
    rw [h i hi, List.getElem?_eq_getElem hi]
  · rw [List.getElem?_eq_none (by simp; omega), List.getElem?_eq_none (by omega)]

/-! ### Keeping the invariants -/

theorem Inv.finished {s : State} (h : Inv s) : Inv s.finished :=
  ⟨h.codeRange, h.bcdDigits, h.wholeBytes, h.keyErased, h.idleEmpty, h.noRecord, h.errorCoded, h.pointerInside,
    fun hb => (by cases hb), h.memSorted, h.memInside⟩

theorem Inv.raise {s : State} (h : Inv s) {e : ErrCode} (w : Word) (he : e ≠ .noError) : Inv (s.raise e w) :=
  ⟨h.codeRange, h.bcdDigits, h.wholeBytes, h.keyErased, h.idleEmpty, fun h => (by cases h), fun _ => he,
    h.pointerInside, h.busyNotDone, h.memSorted, h.memInside⟩

theorem Inv.drawn {s : State} (h : Inv s) (n : Nat) : Inv (s.drawn n) :=
  ⟨h.codeRange, h.bcdDigits, h.wholeBytes, h.keyErased, h.idleEmpty, h.noRecord, h.errorCoded, h.pointerInside,
    h.busyNotDone, h.memSorted, h.memInside⟩

theorem Inv.memWrite {s : State} (h : Inv s) {a : Nat} {v : List Byte} (hl : a + v.length ≤ s.memSize) :
    Inv (s.memWrite a v) :=
  ⟨h.codeRange, h.bcdDigits, h.wholeBytes, h.keyErased, h.idleEmpty, h.noRecord, h.errorCoded, h.pointerInside,
    h.busyNotDone, Memory.wf_write h.memSorted _ _, Memory.below_write h.memInside hl⟩

end Sys2Proof.Machine
end

