-- ==== Sys2Proof/Machine/Session.lean ====
section
/-! DEFINITION. The host at the port: it presents the lists of Machine/Script.lean one transaction after another and decides
from what it reads (spec/43_totp.md R255). `generate` and `verify` whole, as host sequences (R250, R251, spec/00_scope.md R3).
notes/assumptions/15.md. -/

namespace Sys2Proof.Machine

/-- What a piece of a session answers. -/
abbrev Answer (α : Type) : Type := Host.Outcome α Fault Refusal

/-- Go on with what has been answered. -/
def andThen {α β : Type} (o : Answer α) (f : α → Answer β) : Answer β :=
  match o with
  | .next a => f a
  | .fault r => .fault r
  | .refused r => .refused r

/-- Present one event until it is over: a transaction that was held while a command completed is taken at the next step
(R77). -/
def State.transact (s : State) (e : Event) : Answer State :=
  andThen (step { s with agenda := [e] }) fun t => if t.agenda = [] then .next t else step t

/-- What the host has read once `e` is over. -/
def Event.dataAt (e : Event) (t : State) : List Word :=
  match e with
  | .read _ => t.rdata.toList
  | .write _ _ | .seq | .reset => []

/-- Present a list of events one after another: the words read, in order, and the state afterwards (R130). -/
def Script.present : List Event → State → Answer (List Word × State)
  | [], s => .next ([], s)
  | e :: es, s => andThen (s.transact e) fun t =>
      andThen (Script.present es t) fun r => .next (e.dataAt t ++ r.1, r.2)

/-- The first part of R250: decode the secret. If the `STATUS` read shows `ERR` (bit 2) the host reports that word, with its
`ERRCODE`, acknowledges and stops; else it reads the key length. -/
def Script.decodeKey (l : Layout) (secret : List Byte) (s : State) : Answer (Except Word Word × State) :=
  andThen (Script.present (Script.decodeText l secret) s) fun r =>
    if (r.1.getLastD 0).getLsbD 2 then
      andThen (Script.present Script.ack r.2) fun a => .next (.error (r.1.getLastD 0), a.2)
    else
      andThen (Script.present (Script.rd .rlen) r.2) fun k => .next (.ok (k.1.getLastD 0), k.2)

/-- `generate` as the host sequence of R250: the six characters read back, or the `STATUS` word of a failed decode. -/
def Script.runGenerate (l : Layout) (secret : List Byte) (offs : Word) (now : DWord) (s : State) :
    Answer (Except Word (List Byte) × State) :=
  andThen (Script.decodeKey l secret s) fun d =>
    match d.1 with
    | .error status => .next (.error status, d.2)
    | .ok klen => andThen (Script.present (Script.generate l klen offs now) d.2) fun r =>
        .next (.ok (r.1.map fun w => w.extractLsb' 0 8), r.2)

/-- The loop of R251 over the offsets: true, and no further pass, at the first `STATUS` that shows `MATCH` (bit 3); false when
no offset is left. An offset outside [-2^31, 2^31) is reduced modulo 2^32 to the register `OFFS`: DESIGN CHOICE,
notes/assumptions/17.md. -/
def Script.verifyLoop (l : Layout) (klen m : Word) : List Int → State → Answer (Bool × State)
  | [], s => .next (false, s)
  | off :: offs, s => andThen (Script.present (Script.verifyPass l klen m (BitVec.ofInt 32 off)) s) fun r =>
      if (r.1.getLastD 0).getLsbD 3 then .next (true, r.2) else Script.verifyLoop l klen m offs r.2

/-- `verify` as the host sequence of R251: the secret decoded once, the candidate loaded and the time written once, then the
loop over the window. A candidate of 2^32 characters or more has its length reduced modulo 2^32: DESIGN CHOICE,
notes/assumptions/17.md. -/
def Script.runVerify (l : Layout) (secret candidate : List Byte) (window : Int) (now : DWord) (s : State) :
    Answer (Except Word Bool × State) :=
  andThen (Script.decodeKey l secret s) fun d =>
    match d.1 with
    | .error status => .next (.error status, d.2)
    | .ok klen => andThen (Script.present (Script.verifyStart l candidate now) d.2) fun r =>
        andThen (Script.verifyLoop l klen (BitVec.ofNat 32 candidate.length) (Totp.offsets window) r.2) fun b =>
          .next (.ok b.1, b.2)

end Sys2Proof.Machine
end

