-- ==== Sys2Proof/Laws/Session.lean ====
section
/-! SUPPORT. The laws of a host session: what presenting one event does, that lists are presented in order, and that every
session answers, since every step does (spec/44_system.md R272, spec/70_reset_and_hazards.md R345). -/

namespace Sys2Proof.Machine

@[simp] theorem andThen_next {α β : Type} (a : α) (f : α → Answer β) : andThen (.next a) f = f a := rfl

theorem andThen_assoc {α β γ : Type} (o : Answer α) (f : α → Answer β) (g : β → Answer γ) :
    andThen (andThen o f) g = andThen o fun a => andThen (f a) g := by cases o <;> rfl

theorem andThen_answers {α β : Type} {o : Answer α} {f : α → Answer β} (ho : ∃ a, o = .next a)
    (hf : ∀ a, ∃ b, f a = .next b) : ∃ b, andThen o f = .next b := by
  obtain ⟨a, rfl⟩ := ho; exact hf a

/-- Every step answers a next state. -/
theorem step_answers (s : State) : ∃ t, step s = .next t := by
  have seq (u : State) : ∃ t, seqStep u = .next t := by
    unfold seqStep; split
    · exact ⟨_, exec_eq _ _⟩
    · exact ⟨_, rfl⟩
  unfold step advance
  split <;> first | exact ⟨_, rfl⟩ | (split <;> first | exact ⟨_, rfl⟩ | exact seq _)

/-- A transaction that is not held takes one step (R75, R76, R78). -/
theorem State.transact_read {s : State} {a : BitVec 6} (h : s.readReady a = true) :
    s.transact (.read a) = .next ({ s with agenda := [] }.portRead a) := by
  have hs : step { s with agenda := [.read a] } = .next ({ s with agenda := [] }.portRead a) := if_pos h
  have ha : ({ s with agenda := [] }.portRead a).agenda = [] := by
    unfold State.portRead State.bumpMaddr State.drawn; split <;> rfl
  rw [State.transact, hs, andThen_next, if_pos ha]

theorem State.transact_write {s : State} {a : BitVec 6} {w : Word} (h : s.busy = false) :
    s.transact (.write a w) = .next ({ s with agenda := [] }.portWrite a w) := by
  have hs : step { s with agenda := [.write a w] } = .next ({ s with agenda := [] }.portWrite a w) :=
    if_pos (by simp [State.writeReady, h])
  have ha : ({ s with agenda := [] }.portWrite a w).agenda = [] := by
    unfold State.portWrite
    split
    · rename_i r _
      cases r <;> (simp only [State.writeReg, State.clearErr, State.clearDone, State.accept, State.bumpMaddr,
        State.memWrite]; repeat' (first | rfl | split))
    · rfl
  rw [State.transact, hs, andThen_next, if_pos ha]

/-- On the sequencer's turn the accepted command is completed (R272). -/
theorem State.transact_seq {s : State} {i : Instr} (hb : s.busy = true) (hd : decode s.cw = .ok i) :
    s.transact .seq = exec i { s with agenda := [] } := by
  have hs : step { s with agenda := [.seq] } = exec i { s with agenda := [] } := by
    rw [step_seqTurn (s := { s with agenda := [.seq] }) (rest := []) ⟨hb, .inr (.inl rfl)⟩]
    simp only [seqStep, hd]
  have ha : ({ s with agenda := [] }.complete (effectOf i)).agenda = [] := by
    unfold State.complete
    split
    · rfl
    · exact (effect_keeps i _).2.1
  rw [State.transact, hs, exec_eq, andThen_next, if_pos ha]

theorem State.transact_answers (s : State) (e : Event) : ∃ t, s.transact e = .next t :=
  andThen_answers (step_answers _) fun t => by
    split
    · exact ⟨_, rfl⟩
    · exact step_answers t

/-! ### Lists of events -/

@[simp] theorem Script.present_nil (s : State) : Script.present [] s = .next ([], s) := rfl

theorem Script.present_cons (e : Event) (es : List Event) (s : State) :
    Script.present (e :: es) s = andThen (s.transact e) fun t =>
      andThen (Script.present es t) fun r => .next (e.dataAt t ++ r.1, r.2) := rfl

/-- Two lists one after another: the words read by the first, then those read by the second. -/
theorem Script.present_append (es fs : List Event) (s : State) :
    Script.present (es ++ fs) s = andThen (Script.present es s) fun r =>
      andThen (Script.present fs r.2) fun q => .next (r.1 ++ q.1, q.2) := by
  induction es generalizing s with
  | nil => simp only [List.nil_append, present_nil, andThen_next]; cases Script.present fs s <;> rfl
  | cons e es ih => simp only [List.cons_append, present_cons, ih, andThen_assoc, andThen_next, List.append_assoc]

theorem Script.present_answers (es : List Event) (s : State) : ∃ r, Script.present es s = .next r := by
  induction es generalizing s with
  | nil => exact ⟨_, rfl⟩
  | cons e es ih => exact andThen_answers (s.transact_answers e) fun t => andThen_answers (ih t) fun _ => ⟨_, rfl⟩

/-! ### The sessions -/

theorem Script.decodeKey_answers (l : Layout) (secret : List Byte) (s : State) :
    ∃ d, Script.decodeKey l secret s = .next d :=
  andThen_answers (present_answers _ _) fun r => by
    split <;> exact andThen_answers (present_answers _ _) fun _ => ⟨_, rfl⟩

/-- R250: the sequence of `generate` always ends. -/
theorem Script.runGenerate_answers (l : Layout) (secret : List Byte) (offs : Word) (now : DWord) (s : State) :
    ∃ r, Script.runGenerate l secret offs now s = .next r :=
  andThen_answers (decodeKey_answers _ _ _) fun d => by
    split
    · exact ⟨_, rfl⟩
    · exact andThen_answers (present_answers _ _) fun _ => ⟨_, rfl⟩

@[simp] theorem Script.verifyLoop_nil (l : Layout) (klen m : Word) (s : State) :
    Script.verifyLoop l klen m [] s = .next (false, s) := rfl

theorem Script.verifyLoop_answers (l : Layout) (klen m : Word) (offs : List Int) (s : State) :
    ∃ r, Script.verifyLoop l klen m offs s = .next r := by
  induction offs generalizing s with
  | nil => exact ⟨_, rfl⟩
  | cons off offs ih =>
    refine andThen_answers (present_answers _ _) fun r => ?_
    split
    · exact ⟨_, rfl⟩
    · exact ih _

/-- R251: the sequence of `verify` always ends. -/
theorem Script.runVerify_answers (l : Layout) (secret candidate : List Byte) (window : Int) (now : DWord) (s : State) :
    ∃ r, Script.runVerify l secret candidate window now s = .next r :=
  andThen_answers (decodeKey_answers _ _ _) fun d => by
    split
    · exact ⟨_, rfl⟩
    · exact andThen_answers (present_answers _ _) fun _ => andThen_answers (verifyLoop_answers _ _ _ _ _) fun _ => ⟨_, rfl⟩

end Sys2Proof.Machine
end

