-- ==== Sys2Proof/Laws/Stream.lean ====
section
/-! SUPPORT. What the unit holds while a stream is open (spec/40_sha1.md R157, spec/41_hmac.md R186). -/

namespace Sys2Proof.Machine

theorem Streamed.holds {s : State} {m : List Byte} (h : Streamed s m) :
    s.st = .sha ∧ s.sha.Holds m ∧ s.err = false := by
  induction h with
  | opened he hx =>
    rw [exec_of_noErr _ he] at hx; cases hx
    exact ⟨rfl, Sha1Unit.holds_opened _, he⟩
  | updated _ hss hx ht ih =>
    rename_i s s' t m _
    rw [exec_of_noErr _ hss.noError] at hx; cases hx
    obtain ⟨h1, h2, h3⟩ := ih
    simp only [effectOf] at *
    rcases sha1UpdateEffect_cases s' with ⟨hi, hh⟩ | ⟨hi, _, hh⟩ | ⟨hi, _, hh⟩ <;> rw [hh] at ht ⊢
    · cases ht
    · cases ht
    · exact ⟨hss.st.trans h1, Sha1Unit.Holds.absorb (by rw [hss.sha]; exact h2) _, hss.noError⟩

theorem MacStreamed.holds {s : State} {key m : List Byte} (h : MacStreamed s key m) :
    s.st = .hmac ∧ s.sha.Holds (Hmac.ipad (Hmac.keyBlock key) ++ m) ∧ s.err = false ∧
      s.kblk.toList = Hmac.keyBlock key := by
  induction h with
  | opened he hx ht =>
    rename_i s t
    rw [exec_of_noErr _ he] at hx; cases hx
    simp only [effectOf] at *
    rcases hmacInitEffect_cases s with ⟨h1, hh⟩ | ⟨h1, hh⟩ <;> rw [hh] at ht ⊢
    · cases ht
    · refine ⟨rfl, ?_, he, toList_toBlock (Hmac.length_keyBlock _)⟩
      rw [List.append_nil]
      exact (Sha1Unit.holds_opened s.sha).absorb _
  | updated _ hss hx ht ih =>
    rename_i s s' t key m _
    rw [exec_of_noErr _ hss.noError] at hx; cases hx
    obtain ⟨h1, h2, h3, h4⟩ := ih
    simp only [effectOf] at *
    rcases sha1UpdateEffect_cases s' with ⟨hi, hh⟩ | ⟨hi, _, hh⟩ | ⟨hi, _, hh⟩ <;> rw [hh] at ht ⊢
    · cases ht
    · cases ht
    · refine ⟨hss.st.trans h1, ?_, hss.noError, ?_⟩
      · rw [← List.append_assoc]; exact Sha1Unit.Holds.absorb (by rw [hss.sha]; exact h2) _
      · show s'.kblk.toList = _; rw [hss.kblk]; exact h4

end Sys2Proof.Machine
end

