-- ==== Sys2Proof/Laws/Totp.lean ====
section
/-! SUPPORT. The laws of the TOTP unit: the sums of spec/43_totp.md R232 and R239, and the range of a code and its digits. -/

namespace Sys2Proof.Machine

/-- The sum of R232. -/
theorem Totp.toNat_trunc (d : List Byte) :
    (Totp.trunc d).toNat = (d.getD (Totp.window d) 0).toNat % 2 ^ 7 * 2 ^ 24 +
      (d.getD (Totp.window d + 1) 0).toNat * 2 ^ 16 + (d.getD (Totp.window d + 2) 0).toNat * 2 ^ 8 +
      (d.getD (Totp.window d + 3) 0).toNat := by
  simp only [Totp.trunc, toNat_append_eq, BitVec.extractLsb'_toNat, Nat.shiftRight_zero]; omega

/-- A code is below 10^6 (R46 (b), R233). -/
theorem Totp.toNat_codeOf (v : BitVec 31) : (Totp.codeOf v).toNat = v.toNat % 1000000 := by
  rw [Totp.codeOf, BitVec.toNat_ofNat]; omega

theorem Totp.digit_lt (c : BitVec 20) (k : Nat) : Totp.digit c k < 10 := Nat.mod_lt _ (by omega)

/-- Digit `k` of `BCD` is digit `k` of the code (R42, R239). -/
theorem Totp.bcdDigit_bcdOf (c : BitVec 20) {k : Nat} (hk : k < 6) : bcdDigit (Totp.bcdOf c) k = Totp.digit c k := by
  have h := Totp.digit_lt c
  have h0 := h 0
  have h1 := h 1
  have h2 := h 2
  have h3 := h 3
  have h4 := h 4
  have h5 := h 5
  unfold bcdDigit
  rw [BitVec.extractLsb'_toNat, Nat.shiftRight_eq_div_pow]
  simp only [Totp.bcdOf, toNat_append_eq, BitVec.toNat_ofNat]
  match k, hk with
  | 0, _ => omega
  | 1, _ => omega
  | 2, _ => omega
  | 3, _ => omega
  | 4, _ => omega
  | 5, _ => omega

@[simp] theorem Totp.length_text (c : BitVec 20) : (Totp.text c).length = 6 := rfl

/-- The counter over the integers (R231, R235). -/
theorem Totp.toNat_counter (now : DWord) (offs : Word) :
    ((Totp.counter now offs).toNat : Int) = ((now.toNat / 30 : Nat) + offs.toInt) % 2 ^ 64 := by
  unfold Totp.counter
  rw [← BitVec.toInt_signExtend_of_le (v := 64) (x := offs) (by omega)]
  generalize offs.signExtend 64 = x
  rw [BitVec.toNat_add, BitVec.toNat_ofNat, BitVec.toInt_eq_toNat_cond]
  have := x.isLt
  have := now.isLt
  split <;> omega

end Sys2Proof.Machine
end

