-- ==== Sys2Proof/Tests/Slice0.lean ====
section
/-! SUPPORT. Tests. Words are written out from spec/30_encoding.md R121; expected results are the examples of the command
rules and the vectors of spec/95_test_vectors.md and spec/96_test_vectors_continued.md. The last part shows, for every
obligation with hypotheses, a state that meets them. -/

namespace Sys2Proof.Tests

-- One theorem at a time: a thread for each of them would need more memory than the check allows.
set_option Elab.async false

open Sys2Proof Sys2Proof.Machine

/-- A small block, `MEMSZ` = 256, right after reset. -/
def base : State := State.resetOf ⟨0⟩

/-- `base` with bytes written from an address on. -/
def load (a : Nat) (v : List Byte) : State := base.memWrite a v

/-- The state after a command. -/
def after (i : Instr) (s : State) : Option State :=
  match exec i s with
  | .next t => some t
  | .fault _ => none
  | .refused _ => none

/-- The state after a step. -/
def stepped (s : State) : Option State := run 1 s

/-- The bytes of the scratchpad from an address on. -/
def bytes (a n : Nat) (s : State) : List (Option Byte) := (List.range n).map fun i => s.mem.get? (a + i)

/-- A busy block with a command word accepted. -/
def inFlight (w : Word) : State := base.accept w

/-- Some state with a given event next. -/
def presented (e : Event) : State := { base with agenda := [e] }

/-! ### WellFormed: each check refuses a word (R123) -/

theorem test_zero_field_refused : zeroFieldOk 0x00000110 = false ∧ legalWord 0x00000110 = false := by decide
theorem test_opcode_refused : opcodeOk 0x00000015 = false ∧ legalWord 0x00000015 = false := by decide
theorem test_legal_word : legalWord 0x00000010 = true ∧ legalWord 0xFFFFFFFF = false := by decide
theorem test_every_command_wellFormed : ∀ i : Instr, i.wellFormed = true := fun _ => rfl

/-! ### Decoding, a word for every command, written out bit by bit -/

theorem test_decode_system :
    decode 0b00000000000000000000000000000000#32 = .ok .nop ∧
    decode 0b00000000000000000000000000000001#32 = .ok .sysZero := by decide
theorem test_decode_sha1 :
    decode 0b00000000000000000000000000010000#32 = .ok .sha1Init ∧
    decode 0b00000000000000000000000000010001#32 = .ok .sha1Update ∧
    decode 0b00000000000000000000000000010010#32 = .ok .sha1Final ∧
    decode 0b00000000000000000000000000010011#32 = .ok .sha1Block ∧
    decode 0b00000000000000000000000000010100#32 = .ok .sha1Hash := by decide
theorem test_decode_hmac :
    decode 0b00000000000000000000000000100000#32 = .ok .hmacMac ∧
    decode 0b00000000000000000000000000100001#32 = .ok .hmacInit ∧
    decode 0b00000000000000000000000000100010#32 = .ok .hmacFinal := by decide
theorem test_decode_b32 :
    decode 0b00000000000000000000000000110000#32 = .ok .b32Enc ∧
    decode 0b00000000000000000000000000110001#32 = .ok .b32Dec := by decide
theorem test_decode_totp :
    decode 0b00000000000000000000000001000000#32 = .ok .totpCtr ∧
    decode 0b00000000000000000000000001000001#32 = .ok .totpSer ∧
    decode 0b00000000000000000000000001000010#32 = .ok .totpTrunc ∧
    decode 0b00000000000000000000000001000011#32 = .ok .totpMod ∧
    decode 0b00000000000000000000000001000100#32 = .ok .totpDig ∧
    decode 0b00000000000000000000000001000101#32 = .ok .totpCmp := by decide
theorem test_decode_rejects :
    decode 0x00000002 = .error .opcodeUndefined ∧ decode 0x0000001F = .error .opcodeUndefined ∧
    decode 0x00000046 = .error .opcodeUndefined ∧ decode 0x000000FF = .error .opcodeUndefined ∧
    decode 0x00000110 = .error .zeroFieldSet ∧ decode 0x80000000 = .error .zeroFieldSet := by decide
theorem test_decodeTableWord : decodeTableWord 32 0x45 = some .totpCmp ∧ decodeTableWord 32 0x46 = none ∧
    decodeTableWord 40 (2 ^ 32) = none := by decide

/-! ### System commands -/

-- R276: from reset, `CMD NOP` then `RD STATUS` gives 0x00000002.
theorem test_nop : (after .nop base).map State.statusWord = some 0x00000002 := by decide +kernel
-- spec/96 section 3: what SYS.ZERO erases and keeps.
theorem test_sysZero_erases :
    (after .sysZero { load 0 [0x61] with sha := Sha1Unit.zero.opened, st := .sha, cnt := 6, rlen := 8 }).map
      (fun t => (bytes 255 2 t, t.sha == Sha1Unit.zero, t.st, t.cnt, t.rlen)) =
    some ([some 0, none], true, .idle, 0, 0) := by decide +kernel
theorem test_sysZero_keeps :
    (after .sysZero { base with len := 3, maddr := 3, now := 59, offs := 5, ieDone := true }).map
      (fun t => (t.len, t.maddr, t.now, t.offs, t.irq)) = some (3, 3, 59, 5, true) := by decide +kernel

/-! ### SHA-1 -/

-- R149.
theorem test_sha1Init : (after .sha1Init base).map (fun t => (t.sha.h.toList, t.statusWord)) =
    some ([0x67452301, 0xEFCDAB89, 0x98BADCFE, 0x10325476, 0xC3D2E1F0], 0x00000012) := by decide +kernel
-- R150.
theorem test_sha1Update :
    (after .sha1Update { load 0 [0x61, 0x62, 0x63] with sha := Sha1Unit.zero.opened, st := .sha, len := 3 }).map
      (fun t => (t.sha.mlen, t.sha.h == Sha1.iv, t.sha.buf.toList.take 4)) =
    some (24, true, [0x61, 0x62, 0x63, 0]) := by decide +kernel
-- R299: the sequence error comes before the bounds error.
theorem test_sha1Update_idle : (after .sha1Update { base with src := 300, cw := 0x11 }).map
    (fun t => (t.statusWord, t.einfo)) = some (0x00000206, 0x11) := by decide +kernel
-- R151.
theorem test_sha1Final :
    (after .sha1Final { base with
      st := .sha, dst := 0x40, sha := { Sha1Unit.zero with h := Sha1.iv, mlen := 24, buf := toBlock [0x61, 0x62, 0x63] } }).map
      (fun t => (t.sha.h.toList, bytes 0x40 5 t, t.rlen, t.sha.mlen, t.st)) =
    some ([0xA9993E36, 0x4706816A, 0xBA3E2571, 0x7850C26C, 0x9CD0D89D],
      [some 0xa9, some 0x99, some 0x3e, some 0x36, some 0x47], 20, 0, .idle) := by decide +kernel
-- R294: from reset, `CMD SHA1.FINAL`.
theorem test_sha1Final_idle : (after .sha1Final { base with cw := 0x12 }).map (fun t => (t.statusWord, t.einfo)) =
    some (0x00000206, 0x00000012) := by decide +kernel
-- R152 (2).
theorem test_sha1Block : (after .sha1Block (load 0 (zeros 64))).map (fun t => t.sha.h.toList) =
    some [0x9E1547ED, 0x57EC91C2, 0x30FA8BC8, 0xC7785A54, 0xA7EFA5E3] := by decide +kernel
-- R73, R152: one byte past the end.
theorem test_sha1Block_bounds : (after .sha1Block { base with src := 193 }).map State.statusWord = some 0x00000306 := by
  decide +kernel
-- R153, with the destination over the source (R83).
theorem test_sha1Hash : (after .sha1Hash { load 0 [0x61, 0x62, 0x63] with len := 3, dst := 1 }).map
    (fun t => (t.sha.h.toList, bytes 0 3 t, t.rlen)) =
    some ([0xA9993E36, 0x4706816A, 0xBA3E2571, 0x7850C26C, 0x9CD0D89D], [some 0x61, some 0xa9, some 0x99], 20) := by
  decide +kernel
-- V1: the empty message, with the empty range at `MEMSZ` (R73).
theorem test_sha1Hash_empty : (after .sha1Hash { base with src := 256 }).map (fun t => t.sha.h.toList) =
    some [0xDA39A3EE, 0x5E6B4B0D, 0x3255BFEF, 0x95601890, 0xAFD80709] := by decide +kernel
-- R144: words 16, 18, 19 and 79 of the schedule of the padded "abc".
theorem test_schedule : [16, 17, 18, 19, 79].map (fun j =>
    (Sha1.schedule ([0x61, 0x62, 0x63, 0x80] ++ zeros 59 ++ [0x18])).getD j 0) =
    [0xC2C4C700, 0, 0x00000030, 0x85898E01, 0x822E0879] := by decide +kernel

/-! ### HMAC -/

-- V2, R183.
theorem test_hmacMac :
    (after .hmacMac { (load 0 (List.replicate 20 0x0b)).memWrite 0x20 [0x48, 0x69, 0x20, 0x54, 0x68, 0x65, 0x72, 0x65] with
      keyl := 20, src := 0x20, len := 8, dst := 0x40 }).map
      (fun t => (t.sha.h.toList, bytes 0x40 4 t, t.rlen, t.st)) =
    some ([0xB6173186, 0x55057264, 0xE28BC0B6, 0xFB378C8E, 0xF146BE00],
      [some 0xb6, some 0x17, some 0x31, some 0x86], 20, .idle) := by decide +kernel
-- R183: the empty key and message.
theorem test_hmacMac_empty : (after .hmacMac base).map (fun t => bytes 0 4 t) =
    some [some 0xfb, some 0xdb, some 0x1d, some 0x1b] := by decide +kernel
-- R184.
theorem test_hmacInit : (after .hmacInit { load 0 (List.replicate 20 0x0b) with keyl := 20 }).map
    (fun t => (t.sha.h.toList, t.sha.mlen, t.statusWord)) =
    some ([0x064C662A, 0xCC6ED1B0, 0x6CFA9AB0, 0x042F137F, 0xCEA570EB], 512, 0x00000022) := by decide +kernel
-- R185, from the state in which the stream of V2 stands.
theorem test_hmacFinal :
    (after .hmacFinal { base with
      st := .hmac, dst := 0x40, kblk := toBlock (List.replicate 20 0x0b)
      sha := { Sha1Unit.zero with
        h := #v[0x064C662A, 0xCC6ED1B0, 0x6CFA9AB0, 0x042F137F, 0xCEA570EB], mlen := 576
        buf := toBlock [0x48, 0x69, 0x20, 0x54, 0x68, 0x65, 0x72, 0x65] } }).map
      (fun t => (bytes 0x40 4 t, t.sha.h.toList, t.kblk == zeroBlock, t.st)) =
    some ([some 0xb6, some 0x17, some 0x31, some 0x86],
      [0xB6173186, 0x55057264, 0xE28BC0B6, 0xFB378C8E, 0xF146BE00], true, .idle) := by decide +kernel
-- R294: an SHA stream is not closed by HMAC.FINAL.
theorem test_hmacFinal_sha : (after .hmacFinal { base with st := .sha, cw := 0x22 }).map
    (fun t => (t.statusWord, t.einfo)) = some (0x00000216, 0x22) := by decide +kernel

/-! ### Base32 -/

-- R206.
theorem test_b32Enc : (after .b32Enc { load 0 [0x48, 0x65, 0x6c, 0x6c, 0x6f] with len := 5, dst := 0x10 }).map
    (fun t => (bytes 0x10 8 t, t.rlen)) =
    some ([some 0x4A, some 0x42, some 0x53, some 0x57, some 0x59, some 0x33, some 0x44, some 0x50], 8) := by
  decide +kernel
-- R296.
theorem test_b32Enc_overlap : (after .b32Enc { base with len := 5, dst := 4, cw := 0x30 }).map
    (fun t => (t.statusWord, t.einfo)) = some (0x00000406, 0x00000030) := by decide +kernel
-- R207 (1): "jbsw y3dp".
theorem test_b32Dec : (after .b32Dec { load 0 [0x6a, 0x62, 0x73, 0x77, 0x20, 0x79, 0x33, 0x64, 0x70] with
      len := 9, dst := 0x10 }).map (fun t => (bytes 0x10 6 t, t.rlen)) =
    some ([some 0x48, some 0x65, some 0x6c, some 0x6c, some 0x6f, none], 5) := by decide +kernel
-- R207 (2): "JBSW1".
theorem test_b32Dec_bad : (after .b32Dec { load 0 [0x4A, 0x42, 0x53, 0x57, 0x31] with
      len := 5, dst := 0x10, rlen := 7 }).map (fun t => (t.statusWord, t.einfo, t.rlen, bytes 0x10 1 t)) =
    some (0x00000506, 4, 7, [none]) := by decide +kernel
-- R202, R203: padding, dropped bits, an inner `=`.
theorem test_codec : Base32.enc [0x66] = [0x4D, 0x59] ++ List.replicate 6 0x3D ∧
    Base32.dec [0x4D, 0x5A] = .ok [0x66] ∧ Base32.dec [0x4D] = .ok [] ∧
    Base32.dec [0x4D, 0x3D, 0x59] = .error 2 ∧ Base32.dec [0x4D, 0x59, 0x3D, 0x00] = .error 3 := by decide +kernel

/-! ### TOTP -/

-- spec/96 section 2.1: offset -1, and the wrap of spec/93 I4.
theorem test_totpCtr : (after .totpCtr { base with now := 59, offs := 0xFFFFFFFF }).map State.cnt = some 0 ∧
    (after .totpCtr { base with offs := 0xFFFFFFFF }).map State.cnt = some 0xFFFFFFFFFFFFFFFF := by decide +kernel
theorem test_totpCtr_largest : (after .totpCtr { base with now := 0xFFFFFFFFFFFFFFFF, offs := 0x7FFFFFFF }).map
    State.cnt = some 0x0888888908888887 := by decide +kernel
-- R236.
theorem test_totpSer : (after .totpSer { base with cnt := 0x0102030405060708, dst := 0x80 }).map
    (fun t => (bytes 0x80 9 t, t.rlen)) =
    some ([some 1, some 2, some 3, some 4, some 5, some 6, some 7, some 8, none], 8) := by decide +kernel
theorem test_totpSer_bounds : (after .totpSer { base with dst := 249, cw := 0x41 }).map
    (fun t => (t.statusWord, t.einfo)) = some (0x00000306, 0x41) := by decide +kernel
-- R237, and the mask of R232.
theorem test_totpTrunc : (after .totpTrunc (load 0 [0x1f, 0x86, 0x98, 0x69, 0x0e, 0x02, 0xca, 0x16, 0x61, 0x85, 0x50, 0xef,
    0x7f, 0x19, 0xda, 0x8e, 0x94, 0x5b, 0x55, 0x5a])).map State.value = some 0x50EF7F19 := by decide +kernel
theorem test_totpTrunc_mask : (after .totpTrunc (load 0 (List.replicate 20 0xFF))).map State.value =
    some 0x7FFFFFFF := by decide +kernel
-- R238.
theorem test_totpMod : (after .totpMod { base with value := 0x50EF7F19 }).map State.code = some 872921 ∧
    (after .totpMod { base with value := 1000000 }).map State.code = some 0 := by decide +kernel
-- R239: a leading zero is kept.
theorem test_totpDig : (after .totpDig { base with code := 5924, dst := 0xC0 }).map
    (fun t => (t.bcd, bytes 0xC0 6 t, t.rlen)) =
    some (0x005924, [some 0x30, some 0x30, some 0x35, some 0x39, some 0x32, some 0x34], 6) := by decide +kernel
-- R240.
theorem test_totpCmp : (after .totpCmp { load 0xD0 [0x32, 0x38, 0x37, 0x30, 0x38, 0x32] with
      bcd := 0x287082, src := 0xD0, len := 6 }).map State.statusWord = some 0x0000000A ∧
    (after .totpCmp { load 0xD0 [0x32, 0x38, 0x37, 0x30, 0x38, 0x33] with
      bcd := 0x287082, src := 0xD0, len := 6, matched := true }).map State.statusWord = some 0x00000002 := by
  decide +kernel
-- R240: a wrong length reads nothing and never fails; a bad range leaves `MATCH`.
theorem test_totpCmp_stops : (after .totpCmp { base with len := 0xFFFFFFFF, matched := true }).map State.statusWord =
      some 0x00000002 ∧
    (after .totpCmp { base with src := 251, len := 6, matched := true }).map State.statusWord = some 0x0000030E := by
  decide +kernel
-- R250: the secret of P3 at time 59.
theorem test_generate : Totp.generate [0x47, 0x45, 0x5A, 0x44, 0x47, 0x4E, 0x42, 0x56, 0x47, 0x59, 0x33, 0x54, 0x51, 0x4F,
    0x4A, 0x51, 0x47, 0x45, 0x5A, 0x44, 0x47, 0x4E, 0x42, 0x56, 0x47, 0x59, 0x33, 0x54, 0x51, 0x4F, 0x4A, 0x51] 0 59 =
    .ok [0x32, 0x38, 0x37, 0x30, 0x38, 0x32] := by decide +kernel

/-! ### The step, the port and errors -/

-- spec/96 section 3: the undefined opcode, and the discarded word after it.
theorem test_illegal : (stepped (inFlight 0x00000015)).map (fun t => (t.statusWord, t.einfo)) =
    some (0x00000106, 0x00000015) := by decide +kernel
theorem test_discard : (stepped { inFlight 0xDEADBEEF with err := true, errcode := .illcmd, einfo := 0x15 }).map
    (fun t => (t.statusWord, t.einfo)) = some (0x00000106, 0x00000015) := by decide +kernel
-- R77: the value of a `STATUS` read in an open stream, and a held write.
theorem test_poll : (stepped { inFlight 0x11 with st := .sha, agenda := [.read 3] }).map State.rdata =
    some (some 0x00000011) := by decide +kernel
theorem test_held_write : (stepped { inFlight 0x00 with agenda := [.write 5 7] }).map
    (fun t => (t.src, t.agenda, t.statusWord)) = some (0, [.write 5 7], 0x00000002) := by decide +kernel
-- spec/96 section 4.
theorem test_port_reads :
    [0, 1, 2, 3, 4, 12, 28, 29, 63].map (fun a => (stepped (presented (.read (BitVec.ofNat 6 a)))).bind State.rdata) =
    [some 0x46525037, some 0x40081E06, some 0, some 0, some 0, some 0, some 0, some 0, some 0] := by decide +kernel
theorem test_param_default : Config.paramWord Config.standard = 0x400C1E06 ∧ Config.paramWord ⟨8⟩ = 0x40101E06 := by
  decide
theorem test_port_maddr : (stepped (presented (.write 12 0x00001FFF))).map State.maddr = some 0xFF := by decide +kernel
theorem test_port_mdata_wraps : (stepped { presented (.write 13 0x000001AA) with maddr := 0xFF }).map
    (fun t => (t.maddr, bytes 0xFF 1 t)) = some (0, [some 0xAA]) := by decide +kernel
theorem test_port_mdata_read : (stepped { load 0xFF [0xAA] with maddr := 0xFF, agenda := [.read 13] }).map
    (fun t => (t.maddr, t.rdata)) = some (0, some 0x000000AA) := by decide +kernel
theorem test_port_halves : (stepped { presented (.write 15 1) with now := 2 }).map State.now = some 0x100000002 ∧
    (stepped { presented (.write 17 4) with cnt := 0x300000000 }).map State.cnt = some 0x300000004 := by
  decide +kernel
-- spec/96 section 3: only bits 1 and 2 of a `STATUS` write act.
theorem test_ack : (stepped { presented (.write 3 0xFFFFFFF9) with done := true, err := true, errcode := .illcmd }).map
      State.statusWord = some 0x00000106 ∧
    (stepped { presented (.write 3 4) with done := true, err := true, errcode := .illcmd, einfo := 0x15 }).map
      (fun t => (t.statusWord, t.einfo)) = some (0x00000002, 0) := by decide +kernel
theorem test_fetch : (stepped (State.reset.withFetchWord 32 0x40)).map (fun t => (t.cw, t.statusWord)) =
    some (0x40, 0x00000002) := by decide +kernel

-- R77: a write held behind a command in flight is taken after its complete step.
theorem test_held : (andThen ((inFlight 0).transact (.write 5 7)) fun t => .next (t.src, t.statusWord, t.agenda)) =
    .next (7, 0x00000002, []) := rfl

/-! ### Witnesses: for every obligation with hypotheses, something that meets them, clause by clause -/

/-- The secret "GEZDGNBVGY3TQOJQGEZDGNBVGY3TQOJQ" of spec/95_test_vectors.md P3. -/
def secret : List Byte := [0x47, 0x45, 0x5A, 0x44, 0x47, 0x4E, 0x42, 0x56, 0x47, 0x59, 0x33, 0x54, 0x51, 0x4F, 0x4A, 0x51,
  0x47, 0x45, 0x5A, 0x44, 0x47, 0x4E, 0x42, 0x56, 0x47, 0x59, 0x33, 0x54, 0x51, 0x4F, 0x4A, 0x51]

/-- Its code at time 59, "287082". -/
def code59 : List Byte := [0x32, 0x38, 0x37, 0x30, 0x38, 0x32]

theorem seqTurn_idle_host (w : Word) : SeqTurn (inFlight w) [] := ⟨rfl, .inl ⟨rfl, rfl⟩⟩

theorem base_inv : Inv base :=
  ⟨by decide, by decide, rfl, fun _ => rfl, fun _ => ⟨rfl, rfl⟩, fun _ => ⟨rfl, rfl⟩, fun h => (by cases h), by decide,
    fun h => (by cases h), List.Pairwise.nil, by intro c hc; cases hc⟩

theorem witness_StepRunsDecodedCommand :
    (∃ s rest i, SeqTurn s rest ∧ s.agenda = [] ∧ decode s.cw = .ok i) ∧
    (∃ s rest, SeqTurn s rest ∧ s.agenda = .seq :: rest) ∧
    (∃ s rest, SeqTurn s rest ∧ s.agenda.head? = some (.read 4)) ∧
    (∃ s rest, SeqTurn s rest ∧ s.agenda.head? = some (.write 63 0)) :=
  ⟨⟨inFlight 0x14, [], .sha1Hash, seqTurn_idle_host _, rfl, by decide⟩,
   ⟨{ inFlight 0 with agenda := [.seq] }, [], ⟨rfl, .inr (.inl rfl)⟩, rfl⟩,
   ⟨{ inFlight 0 with agenda := [.read 4] }, _, ⟨rfl, .inr (.inr (.inl ⟨4, [], rfl, by decide, rfl⟩))⟩, rfl⟩,
   ⟨{ inFlight 0 with agenda := [.write 63 0] }, _, ⟨rfl, .inr (.inr (.inr ⟨63, 0, [], rfl, rfl⟩))⟩, rfl⟩⟩

theorem witness_FetchedWordRunsNext : decodeTableWord 32 0x14 = some .sha1Hash := by decide

theorem witness_IllegalWordFails :
    (∃ s rest, SeqTurn s rest ∧ s.err = false ∧ s.cw.toNat / 2 ^ 8 ≠ 0) ∧
    (∃ s rest, SeqTurn s rest ∧ s.err = false ∧ s.cw.toNat % 2 ^ 8 ∉ [0x00, 0x01, 0x10, 0x11, 0x12, 0x13, 0x14, 0x20, 0x21,
      0x22, 0x30, 0x31, 0x40, 0x41, 0x42, 0x43, 0x44, 0x45]) :=
  ⟨⟨inFlight 0x110, [], seqTurn_idle_host _, rfl, by decide⟩, ⟨inFlight 0x46, [], seqTurn_idle_host _, rfl, by decide⟩⟩

theorem witness_CommandWhileErrorIsDiscarded : ∃ s rest, SeqTurn s rest ∧ s.err = true :=
  ⟨{ inFlight 0x15 with err := true }, [], ⟨rfl, .inl ⟨rfl, rfl⟩⟩, rfl⟩

theorem witness_FailingCommandIsPrecise :
    ∃ s t rest, SeqTurn s rest ∧ s.err = false ∧ step s = .next t ∧ t.err = true :=
  ⟨inFlight 0x15, _, [], seqTurn_idle_host _, rfl, rfl, rfl⟩

theorem witness_CommandsRaiseOnlyTheirErrors :
    (∃ i s t, s.err = false ∧ exec i s = .next t ∧ t.err = true) ∧
    (∃ i s t, s.err = false ∧ exec i s = .next t ∧ raisable i = []) :=
  ⟨⟨.sha1Final, base, _, rfl, rfl, rfl⟩, ⟨.totpMod, base, _, rfl, rfl, rfl⟩⟩

theorem witness_SequenceErrorExactly :
    (∃ i s, s.err = false ∧ OutOfSequence s i) ∧ (∃ i s, s.err = false ∧ ¬ OutOfSequence s i) :=
  ⟨⟨.sha1Update, base, rfl, .inl ⟨rfl, rfl⟩⟩, ⟨.nop, base, rfl, by simp [OutOfSequence]⟩⟩

theorem witness_BoundsErrorExactly :
    (∃ i s, s.err = false ∧ ¬ OutOfSequence s i ∧ ∃ o ∈ checkedOperands s i, s.memSize < o.1.toNat + o.2) ∧
    (∃ i s, s.err = false ∧ ¬ OutOfSequence s i ∧ checkedOperands s i ≠ [] ∧
      ∀ o ∈ checkedOperands s i, o.1.toNat + o.2 ≤ s.memSize) :=
  ⟨⟨.totpDig, { base with dst := 251 }, rfl, by simp [OutOfSequence], by decide⟩,
   ⟨.totpDig, { base with dst := 250 }, rfl, by simp [OutOfSequence], by decide, by decide⟩⟩

theorem witness_OnlyItsCommandsWriteAnElement : ∃ i s t, exec i s = .next t ∧ i ≠ .sysZero :=
  ⟨.totpMod, base, _, rfl, by decide⟩

theorem witness_StepKeepsTheInvariants : ∃ s t, Inv s ∧ step s = .next t := ⟨base, _, base_inv, rfl⟩

theorem witness_ResetEventGivesResetState : ∃ s : State, ∃ rest, s.busy = true ∧ s.agenda = .reset :: rest :=
  ⟨{ inFlight 0x14 with agenda := [.reset] }, [], rfl, rfl⟩

theorem witness_PortInterlock :
    (∃ s : State, ∃ rest, s.busy = true ∧ s.agenda = .read 3 :: rest) ∧
    (∃ s : State, ∃ e rest, s.busy = true ∧ s.agenda = e :: rest ∧ ∃ a, e = .read a ∧ a ≠ 3) ∧
    (∃ s : State, ∃ e rest, s.busy = true ∧ s.agenda = e :: rest ∧ ∃ a w, e = .write a w) :=
  ⟨⟨{ inFlight 0 with agenda := [.read 3] }, [], rfl, rfl⟩,
   ⟨{ inFlight 0 with agenda := [.read 2] }, _, [], rfl, rfl, 2, rfl, by decide⟩,
   ⟨{ inFlight 0 with agenda := [.write 3 6] }, _, [], rfl, rfl, 3, 6, rfl⟩⟩

/-- Every index of the port meets the hypotheses, in the case of `MDATA` with the byte written. -/
theorem witness_PortReadReturnsRegister :
    (∀ a : BitVec 6, (presented (.read a)).busy = false ∧ (presented (.read a)).agenda = [.read a]) ∧
    (∃ s : State, s.busy = false ∧ s.agenda = [.read 13] ∧ s.mem.get? s.maddr.toNat = some 0xAA) :=
  ⟨fun _ => ⟨rfl, rfl⟩, { load 0xFF [0xAA] with maddr := 0xFF, agenda := [.read 13] }, rfl, rfl, by decide⟩

theorem witness_PortWriteStoresRegister : ∀ (a : BitVec 6) (w : Word),
    (presented (.write a w)).busy = false ∧ (presented (.write a w)).agenda = [.write a w] := fun _ _ => ⟨rfl, rfl⟩

/-- Also the hypotheses of the second part of `IrqFollowsFlagsAndEnables`. -/
theorem witness_AcceptStepLatchesTheWord : ∃ s : State, ∃ w rest, s.busy = false ∧ s.agenda = .write 4 w :: rest :=
  ⟨presented (.write 4 0x15), 0x15, [], rfl, rfl⟩

theorem witness_AcknowledgedErrorIsGone : ∃ s : State, ∃ w cmd rest i, s.err = true ∧ s.busy = false ∧
    w.getLsbD 2 = true ∧ w.getLsbD 1 = true ∧ s.agenda = .write 3 w :: .write 4 cmd :: .seq :: rest ∧ decode cmd = .ok i :=
  ⟨{ base with err := true, errcode := .bounds, agenda := [.write 3 6, .write 4 0x01, .seq] }, 6, 1, [], .sysZero, rfl, rfl,
    by decide, by decide, rfl, by decide⟩

theorem witness_PollingDoesNotChangeTheOutcome : ∀ n : Nat, ∃ s : State, ∃ rest,
    s.busy = true ∧ s.agenda = List.replicate n (.read 3) ++ .seq :: rest :=
  fun n => ⟨{ inFlight 0x14 with agenda := List.replicate n (.read 3) ++ [.seq] }, [], rfl, rfl⟩

/-- The one hypothesis of the statements about `SYS.ZERO`, `SHA1.INIT`, `TOTP.CTR` and `TOTP.MOD`, which cannot fail. -/
theorem witness_noError : base.err = false := rfl

theorem witness_SysZeroForgetsSecrets : ∃ s t, SameOutsideSecrets s t ∧ s.err = false ∧ s ≠ t :=
  ⟨base, { base with code := 7, mem := [(0, 0x61)] },
    ⟨rfl, rfl, rfl, rfl, rfl, rfl, rfl, rfl, rfl, rfl, rfl, rfl, rfl, rfl, rfl, rfl, rfl, rfl, rfl, rfl⟩, rfl, by decide⟩

theorem witness_Sha1UpdateAbsorbs :
    (∃ s : State, s.err = false ∧ s.st = .idle) ∧
    (∃ s : State, s.err = false ∧ s.st ≠ .idle ∧ s.memSize < s.src.toNat + s.len.toNat) ∧
    (∃ s : State, s.err = false ∧ s.st ≠ .idle ∧ s.src.toNat + s.len.toNat = s.memSize) :=
  ⟨⟨base, rfl, rfl⟩, ⟨{ base with st := .hmac, src := 257 }, rfl, by decide, by decide⟩,
   ⟨{ base with st := .sha, src := 255, len := 1 }, rfl, by decide, by decide⟩⟩

theorem witness_AbsorbIsByteByByte :
    (∃ (u : Sha1Unit) (n : Nat), n < 64 ∧ n = u.mlen.toNat / 8 % 64 ∧ n < 63) ∧
    (∃ (u : Sha1Unit) (n : Nat), n < 64 ∧ n = u.mlen.toNat / 8 % 64 ∧ n = 63) :=
  ⟨⟨{ Sha1Unit.zero with mlen := 496 }, 62, by decide⟩, ⟨{ Sha1Unit.zero with mlen := 504 }, 63, by decide⟩⟩

theorem witness_FinishPadsAndCompresses :
    (∃ u : Sha1Unit, u.mlen.toNat / 8 % 64 = 55) ∧ (∃ u : Sha1Unit, u.mlen.toNat / 8 % 64 = 56) :=
  ⟨⟨{ Sha1Unit.zero with mlen := 440 }, by decide⟩, ⟨{ Sha1Unit.zero with mlen := 448 }, by decide⟩⟩

theorem witness_Sha1FinalDelivers :
    (∃ s : State, s.err = false ∧ s.st ≠ .sha) ∧
    (∃ s : State, s.err = false ∧ s.st = .sha ∧ s.memSize < s.dst.toNat + 20) ∧
    (∃ s : State, s.err = false ∧ s.st = .sha ∧ s.dst.toNat + 20 = s.memSize) :=
  ⟨⟨base, rfl, by decide⟩, ⟨{ base with st := .sha, dst := 237 }, rfl, rfl, by decide⟩,
   ⟨{ base with st := .sha, dst := 236 }, rfl, rfl, by decide⟩⟩

theorem witness_Sha1BlockCompresses :
    (∃ s : State, s.err = false ∧ s.memSize < s.src.toNat + 64) ∧
    (∃ s : State, s.err = false ∧ s.src.toNat + 64 = s.memSize) :=
  ⟨⟨{ base with src := 193 }, rfl, by decide⟩, ⟨{ base with src := 192 }, rfl, by decide⟩⟩

/-- The hypotheses of `Sha1HashDelivers`, and those of `HashEqualsInitUpdateFinal`. -/
theorem witness_Sha1HashDelivers :
    (∃ s : State, s.err = false ∧ s.memSize < s.src.toNat + s.len.toNat) ∧
    (∃ s : State, s.err = false ∧ s.memSize < s.dst.toNat + 20) ∧
    (∃ s : State, s.err = false ∧ s.src.toNat + s.len.toNat = s.memSize ∧ s.dst.toNat + 20 = s.memSize) :=
  ⟨⟨{ base with src := 257 }, rfl, by decide⟩, ⟨{ base with dst := 237 }, rfl, by decide⟩,
   ⟨{ base with src := 250, len := 6, dst := 236 }, rfl, by decide, by decide⟩⟩

theorem witness_ScheduleFollowsRecurrence : ∃ blk : List Byte, blk.length = 64 := ⟨zeros 64, by decide⟩

/-- A stream opened from `base`, and the same stream after one update with the empty range. -/
theorem witness_StreamDeliversHashOfWholeMessage : ∃ s s' m, Streamed s m ∧ SameStream s s' ∧ m.length < 2 ^ 61 ∧
    s'.dst.toNat + 20 ≤ s'.memSize := by
  have h0 : Streamed _ [] := .opened (s := base) rfl rfl
  have h1 := h0.updated ⟨rfl, rfl, rfl, rfl⟩ (s' := base.complete sha1InitEffect) rfl rfl
  exact ⟨_, _, _, h1, ⟨rfl, rfl, rfl, rfl⟩, by decide, by decide⟩

theorem witness_KeyBlockShape : (∃ key : List Byte, key.length = 64) ∧ (∃ key : List Byte, key.length = 65) :=
  ⟨⟨zeros 64, by decide⟩, ⟨zeros 65, by decide⟩⟩

/-- The hypotheses of `HmacMacDelivers`, and those of `HmacMacEqualsInitUpdateFinal`. -/
theorem witness_HmacMacDelivers :
    (∃ s : State, s.err = false ∧ s.memSize < s.keya.toNat + s.keyl.toNat) ∧
    (∃ s : State, s.err = false ∧ s.memSize < s.src.toNat + s.len.toNat) ∧
    (∃ s : State, s.err = false ∧ s.memSize < s.dst.toNat + 20) ∧
    (∃ s : State, s.err = false ∧ s.keya.toNat + s.keyl.toNat = s.memSize ∧ s.src.toNat + s.len.toNat = s.memSize ∧
      s.dst.toNat + 20 = s.memSize) :=
  ⟨⟨{ base with keya := 257 }, rfl, by decide⟩, ⟨{ base with len := 257 }, rfl, by decide⟩,
   ⟨{ base with dst := 237 }, rfl, by decide⟩,
   ⟨{ base with keyl := 256, src := 256, dst := 236 }, rfl, by decide, by decide, by decide⟩⟩

theorem witness_HmacInitOpensStream :
    (∃ s : State, s.err = false ∧ s.memSize < s.keya.toNat + s.keyl.toNat) ∧
    (∃ s : State, s.err = false ∧ s.keya.toNat + s.keyl.toNat = s.memSize) :=
  ⟨⟨{ base with keya := 200, keyl := 57 }, rfl, by decide⟩, ⟨{ base with keya := 200, keyl := 56 }, rfl, by decide⟩⟩

theorem witness_HmacFinalDelivers :
    (∃ s : State, s.err = false ∧ s.st ≠ .hmac) ∧
    (∃ s : State, s.err = false ∧ s.st = .hmac ∧ s.memSize < s.dst.toNat + 20) ∧
    (∃ s : State, s.err = false ∧ s.st = .hmac ∧ s.dst.toNat + 20 = s.memSize) :=
  ⟨⟨{ base with st := .sha }, rfl, by decide⟩, ⟨{ base with st := .hmac, dst := 237 }, rfl, rfl, by decide⟩,
   ⟨{ base with st := .hmac, dst := 236 }, rfl, rfl, by decide⟩⟩

theorem witness_HmacStreamDeliversMac : ∃ s s' key m, MacStreamed s key m ∧ SameStream s s' ∧ 64 + m.length < 2 ^ 61 ∧
    s'.dst.toNat + 20 ≤ s'.memSize := by
  have h0 : MacStreamed _ _ [] := .opened (s := base) rfl rfl rfl
  have h1 := h0.updated ⟨rfl, rfl, rfl, rfl⟩ (s' := base.complete hmacInitEffect) rfl rfl
  exact ⟨_, _, _, _, h1, ⟨rfl, rfl, rfl, rfl⟩, by decide, by decide⟩

/-- A data character and a pad character of the text of one byte. -/
theorem witness_EncoderFollowsItsRule : ∃ x : List Byte, 1 < (8 * x.length + 4) / 5 ∧
    2 < 8 * ((x.length + 4) / 5) ∧ (8 * x.length + 4) / 5 ≤ 2 := ⟨[0x66], by decide⟩

/-- A text with an offending byte, "0", and one without, "A". -/
theorem witness_DecoderFollowsItsRule : Offends [0x30] 0 ∧ ∀ j, ¬ Offends [0x41] j := by
  refine ⟨⟨0x30, rfl, by decide, by decide, .inl (by decide)⟩, ?_⟩
  rintro (_ | j) ⟨c, h, h1, h2, h3⟩
  · cases h
    rcases h3 with h3 | ⟨k, hk, _⟩
    · revert h3; decide
    · omega
  · simp at h

theorem witness_DecoderIgnoresWhitespaceAndCase :
    (∃ w : Byte, Base32.isSpace w = true) ∧ (∃ c : Byte, 0x41 ≤ c.toNat ∧ c.toNat = 0x5A) :=
  ⟨⟨0x20, by decide⟩, ⟨0x5A, by decide⟩⟩

theorem witness_B32EncWritesText :
    (∃ s : State, s.err = false ∧ s.memSize < s.src.toNat + s.len.toNat) ∧
    (∃ s : State, s.err = false ∧ s.memSize < s.dst.toNat + 8 * ((s.len.toNat + 4) / 5)) ∧
    (∃ s : State, s.err = false ∧ s.src.toNat + s.len.toNat ≤ s.memSize ∧
      s.dst.toNat + 8 * ((s.len.toNat + 4) / 5) ≤ s.memSize ∧
      overlap s.src.toNat s.len.toNat s.dst.toNat (8 * ((s.len.toNat + 4) / 5)) = true) ∧
    (∃ s : State, s.err = false ∧ s.src.toNat + s.len.toNat ≤ s.memSize ∧
      s.dst.toNat + 8 * ((s.len.toNat + 4) / 5) = s.memSize ∧
      overlap s.src.toNat s.len.toNat s.dst.toNat (8 * ((s.len.toNat + 4) / 5)) = false) :=
  ⟨⟨{ base with len := 257 }, rfl, by decide⟩, ⟨{ base with len := 5, dst := 249 }, rfl, by decide⟩,
   ⟨{ base with len := 5, dst := 4 }, rfl, by decide, by decide, by decide⟩,
   ⟨{ base with src := 243, len := 5, dst := 248 }, rfl, by decide, by decide, by decide⟩⟩

theorem witness_B32DecWritesBytes :
    (∃ s : State, s.err = false ∧ s.memSize < s.dst.toNat + 5 * s.len.toNat / 8) ∧
    (∃ s : State, s.err = false ∧ s.src.toNat + s.len.toNat ≤ s.memSize ∧
      s.dst.toNat + 5 * s.len.toNat / 8 ≤ s.memSize ∧
      overlap s.src.toNat s.len.toNat s.dst.toNat (5 * s.len.toNat / 8) = true) ∧
    (∃ s : State, s.err = false ∧ s.src.toNat + s.len.toNat ≤ s.memSize ∧
      s.dst.toNat + 5 * s.len.toNat / 8 ≤ s.memSize ∧
      overlap s.src.toNat s.len.toNat s.dst.toNat (5 * s.len.toNat / 8) = false ∧
      ∃ i, Base32.dec (s.memRead s.src.toNat s.len.toNat) = .error i) ∧
    (∃ s : State, s.err = false ∧ s.src.toNat + s.len.toNat ≤ s.memSize ∧
      s.dst.toNat + 5 * s.len.toNat / 8 = s.memSize ∧
      overlap s.src.toNat s.len.toNat s.dst.toNat (5 * s.len.toNat / 8) = false ∧
      ∃ y, Base32.dec (s.memRead s.src.toNat s.len.toNat) = .ok y) :=
  ⟨⟨{ base with len := 2, dst := 256 }, rfl, by decide⟩,
   ⟨{ base with len := 2, dst := 1 }, rfl, by decide, by decide, by decide⟩,
   ⟨{ load 0 [0x30] with len := 1, dst := 8 }, rfl, by decide, by decide, by decide, 0, by decide +kernel⟩,
   ⟨{ load 0 [0x4D, 0x59] with len := 2, dst := 255 }, rfl, by decide, by decide, by decide, [0x66], by decide +kernel⟩⟩

theorem witness_TotpSerSerialises :
    (∃ s : State, s.err = false ∧ s.memSize < s.dst.toNat + 8) ∧ (∃ s : State, s.err = false ∧ s.dst.toNat + 8 = s.memSize) :=
  ⟨⟨{ base with dst := 249 }, rfl, by decide⟩, ⟨{ base with dst := 248 }, rfl, by decide⟩⟩

/-- The highest window, offset 15, and the lowest. -/
theorem witness_TotpTruncTakesWindow :
    (∃ s : State, s.err = false ∧ s.memSize < s.src.toNat + 20) ∧
    (∃ s : State, s.err = false ∧ s.src.toNat + 20 = s.memSize ∧ ((s.memRead s.src.toNat 20).getD 19 0).toNat % 16 = 15) ∧
    (∃ s : State, s.err = false ∧ s.src.toNat + 20 ≤ s.memSize ∧ ((s.memRead s.src.toNat 20).getD 19 0).toNat % 16 = 0) :=
  ⟨⟨{ base with src := 237 }, rfl, by decide⟩,
   ⟨{ load 255 [0x1F] with src := 236 }, rfl, by decide, by decide +kernel⟩,
   ⟨load 19 [0xF0], rfl, by decide, by decide +kernel⟩⟩

theorem witness_TotpDigExtracts :
    (∃ s : State, s.err = false ∧ s.memSize < s.dst.toNat + 6) ∧ (∃ s : State, s.err = false ∧ s.dst.toNat + 6 = s.memSize) :=
  ⟨⟨{ base with dst := 251 }, rfl, by decide⟩, ⟨{ base with dst := 250 }, rfl, by decide⟩⟩

theorem witness_TotpCmpCompares :
    (∃ s : State, s.err = false ∧ s.len ≠ 6) ∧
    (∃ s : State, s.err = false ∧ s.len = 6 ∧ s.memSize < s.src.toNat + 6) ∧
    (∃ s : State, s.err = false ∧ s.len = 6 ∧ s.src.toNat + 6 = s.memSize) :=
  ⟨⟨{ base with len := 7 }, rfl, by decide⟩, ⟨{ base with len := 6, src := 251 }, rfl, rfl, by decide⟩,
   ⟨{ base with len := 6, src := 250 }, rfl, rfl, by decide⟩⟩

theorem witness_GenerateSequenceDeliversTheCode : ∃ (s : State) (l : Layout) (now : DWord),
    s.err = false ∧ (∀ i, i < secret.length → s.mem.get? (l.txt.toNat + i) = secret[i]?) ∧
    l.txt.toNat + secret.length ≤ s.memSize ∧ l.key.toNat + 5 * secret.length / 8 ≤ s.memSize ∧
    l.ctr.toNat + 8 ≤ s.memSize ∧ l.dig.toNat + 20 ≤ s.memSize ∧ l.code.toNat + 6 ≤ s.memSize ∧
    overlap l.txt.toNat secret.length l.key.toNat (5 * secret.length / 8) = false ∧
    overlap l.ctr.toNat 8 l.key.toNat (5 * secret.length / 8) = false ∧
    0 ≤ ((now.toNat / 30 : Nat) : Int) + (0 : Word).toInt ∧ Base32.dec secret ≠ .ok [] ∧
    Totp.generate secret 0 now = .ok code59 :=
  ⟨load 0 secret, ⟨0, 0x40, 0x60, 0x70, 0x90, 0xA0⟩, 59, rfl, by decide +kernel, by decide, by decide, by decide, by decide,
    by decide, by decide, by decide, by decide, by decide +kernel, by decide +kernel⟩

theorem witness_VerifyFollowsTheDriftWindow : ∃ (now : DWord) (window : Int) (d : Nat) (candidate : List Byte),
    Base32.dec secret ≠ .ok [] ∧ Totp.generate secret 0 now = .ok code59 ∧
      0 ≤ window ∧ window < 2 ^ 31 ∧ window = (now.toNat / 30 : Nat) ∧
      d = 30 ∧ now.toNat + d < 2 ^ 64 ∧ 30 ≤ now.toNat + d ∧ now.toNat + 61 < 2 ^ 64 ∧
      candidate.length ≠ 6 ∧ (0 : Int) ∈ Totp.offsets 0 ∧ (-1 : Int) ∈ Totp.offsets 1 :=
  ⟨59, 1, 30, [0x31, 0x32, 0x61, 0x34, 0x35], by decide +kernel, by decide +kernel, by decide, by decide, by decide, rfl,
    by decide, by decide, by decide, by decide, by decide, by decide⟩

end Sys2Proof.Tests
end

section
/-! The family of the state (spec/10_state.md): the fields of `STATUS`, who writes which element, and the invariants of R46 at
reset and along every step. -/

namespace Sys2Proof.Machine

/-! ### The reset state -/

theorem Inv.resetOf (c : Config) : Inv (State.resetOf c) where
  codeRange := Nat.zero_le _
  bcdDigits := show ∀ k, k < 6 → bcdDigit 0 k ≤ 9 by decide
  wholeBytes := rfl
  keyErased _ := rfl
  idleEmpty _ := ⟨rfl, rfl⟩
  noRecord _ := ⟨rfl, rfl⟩
  errorCoded h := nomatch h
  pointerInside := Nat.lt_of_lt_of_le (show 0 < 256 by decide) c.le_memSize
  busyNotDone h := nomatch h
  memSorted := List.Pairwise.nil
  memInside := List.forall_mem_nil _

/-- Settles O14: the invariants hold at reset for every size. -/
theorem resetStateHasTheInvariants : Obligations.ResetStateHasTheInvariants :=
  ⟨Inv.resetOf _, Inv.resetOf⟩

/-! ### The status word -/

theorem Stream.code_lt (x : Stream) : x.code < 3 := by cases x <;> decide

theorem ErrCode.code_lt (e : ErrCode) : e.code < 6 := by cases e <;> decide

/-- The sum of R76 fits the 32 bits of the word. -/
theorem State.toNat_statusWord (s : State) :
    s.statusWord.toNat = s.errcode.code * 2 ^ 8 + s.st.code * 2 ^ 4 + s.matched.toNat * 8 + s.err.toNat * 4 +
      s.done.toNat * 2 + s.busy.toNat := by
  have := s.st.code_lt
  have := s.errcode.code_lt
  have := s.matched.toNat_le
  have := s.err.toNat_le
  have := s.done.toNat_le
  have := s.busy.toNat_le
  rw [State.statusWord, BitVec.toNat_ofNat]
  omega

/-- A bit of a word, read off its number. -/
theorem getLsbD_eq_of_div_mod {w k : Nat} {x : BitVec w} {b : Bool} (h : x.toNat / 2 ^ k % 2 = b.toNat) :
    x.getLsbD k = b := by
  rw [BitVec.getLsbD, Nat.testBit_eq_decide_div_mod_eq, h]
  cases b <;> rfl

/-- A field of a word, read off its number. -/
theorem toNat_field {w : Nat} (x : BitVec w) (k n : Nat) : (x.extractLsb' k n).toNat = x.toNat / 2 ^ k % 2 ^ n := by
  rw [BitVec.extractLsb'_toNat, Nat.shiftRight_eq_div_pow]

/-- Settles O18: every field is read off the sum of R76, in which each term is below the weight of the next. -/
theorem statusWordFields : Obligations.StatusWordFields := by
  intro s
  have hsum := s.toNat_statusWord
  have hst := s.st.code_lt
  have herr := s.errcode.code_lt
  have := s.matched.toNat_le
  have := s.err.toNat_le
  have := s.done.toNat_le
  have := s.busy.toNat_le
  refine ⟨getLsbD_eq_of_div_mod ?_, getLsbD_eq_of_div_mod ?_, getLsbD_eq_of_div_mod ?_, getLsbD_eq_of_div_mod ?_,
    ?_, BitVec.eq_of_toNat_eq ?_, ?_, BitVec.eq_of_toNat_eq ?_, hst, herr⟩ <;>
    simp only [toNat_field, hsum, BitVec.ofNat_eq_ofNat, BitVec.toNat_ofNat] <;> omega

/-! ### Who writes which element -/

/-- The TOTP results and `MATCH` are written by the command of their row alone (R24, R33). -/
theorem effect_totpResults (i : Instr) (s : State) (hz : i ≠ .sysZero) :
    (i ≠ .totpTrunc → (effectOf i s).value = s.value) ∧ (i ≠ .totpMod → (effectOf i s).code = s.code) ∧
    (i ≠ .totpDig → (effectOf i s).bcd = s.bcd) ∧ (i ≠ .totpCmp → (effectOf i s).matched = s.matched) := by
  cases i <;> simp only [effectOf]
  case nop => simp [nopEffect]
  case sysZero => exact absurd rfl hz
  case sha1Init => simp [sha1InitEffect]
  case sha1Update => rcases sha1UpdateEffect_cases s with h | h | h <;> simp [h]
  case sha1Final => rcases sha1FinalEffect_cases s with h | h | h <;> simp [h]
  case sha1Block => rcases sha1BlockEffect_cases s with h | h <;> simp [h]
  case sha1Hash => rcases sha1HashEffect_cases s with h | h <;> simp [h, State.deliver]
  case hmacMac => rcases hmacMacEffect_cases s with h | h <;> simp [h, State.deliver]
  case hmacInit => rcases hmacInitEffect_cases s with h | h <;> simp [h]
  case hmacFinal => rcases hmacFinalEffect_cases s with h | h | h <;> simp [h]
  case b32Enc => rcases b32EncEffect_cases s with h | h | h <;> simp [h]
  case b32Dec => rcases b32DecEffect_cases s with h | h | ⟨_, _, _, ⟨_, _, h⟩ | ⟨_, _, h⟩⟩ <;> simp [h]
  case totpCtr => simp [totpCtrEffect]
  case totpSer => rcases totpSerEffect_cases s with h | h <;> simp [h]
  case totpTrunc => rcases totpTruncEffect_cases s with h | h <;> simp [h]
  case totpMod => simp [totpModEffect]
  case totpDig => rcases totpDigEffect_cases s with h | h <;> simp [h]
  case totpCmp => rcases totpCmpEffect_cases s with h | h | h <;> simp [h]

/-- The commands outside the hash units leave the SHA-1 unit, `KBLK` and `ST` (R24). -/
theorem effect_hashUnits {i : Instr} (s : State)
    (hi : i ∈ [.nop, .b32Enc, .b32Dec, .totpCtr, .totpSer, .totpTrunc, .totpMod, .totpDig, .totpCmp]) :
    (effectOf i s).sha = s.sha ∧ (effectOf i s).kblk = s.kblk ∧ (effectOf i s).st = s.st := by
  cases i <;> simp only [effectOf]
  case nop => simp [nopEffect]
  case b32Enc => rcases b32EncEffect_cases s with h | h | h <;> simp [h]
  case b32Dec => rcases b32DecEffect_cases s with h | h | ⟨_, _, _, ⟨_, _, h⟩ | ⟨_, _, h⟩⟩ <;> simp [h]
  case totpCtr => simp [totpCtrEffect]
  case totpSer => rcases totpSerEffect_cases s with h | h <;> simp [h]
  case totpTrunc => rcases totpTruncEffect_cases s with h | h <;> simp [h]
  case totpMod => simp [totpModEffect]
  case totpDig => rcases totpDigEffect_cases s with h | h <;> simp [h]
  case totpCmp => rcases totpCmpEffect_cases s with h | h | h <;> simp [h]
  all_goals exact absurd hi (by decide)

/-- The commands without a `MEM` destination leave `MEM` and `RLEN` (R26). -/
theorem effect_mem {i : Instr} (s : State)
    (hi : i ∈ [.nop, .sha1Init, .sha1Update, .sha1Block, .hmacInit, .totpCtr, .totpTrunc, .totpMod, .totpCmp]) :
    (effectOf i s).mem = s.mem ∧ (effectOf i s).rlen = s.rlen := by
  cases i <;> simp only [effectOf]
  case nop => simp [nopEffect]
  case sha1Init => simp [sha1InitEffect]
  case sha1Update => rcases sha1UpdateEffect_cases s with h | h | h <;> simp [h]
  case sha1Block => rcases sha1BlockEffect_cases s with h | h <;> simp [h]
  case hmacInit => rcases hmacInitEffect_cases s with h | h <;> simp [h]
  case totpCtr => simp [totpCtrEffect]
  case totpTrunc => rcases totpTruncEffect_cases s with h | h <;> simp [h]
  case totpMod => simp [totpModEffect]
  case totpCmp => rcases totpCmpEffect_cases s with h | h | h <;> simp [h]
  all_goals exact absurd hi (by decide)

/-- Settles O13: a discarded command writes `BUSY` and `DONE` alone; any other one writes what its effect writes. -/
theorem onlyItsCommandsWriteAnElement : Obligations.OnlyItsCommandsWriteAnElement := by
  intro i s t h hz
  rw [exec_next h]
  cases he : s.err
  · rw [State.complete_of_noErr _ he]
    obtain ⟨hvalue, hcode, hbcd, hmatched⟩ := effect_totpResults i s hz
    exact ⟨hvalue, hcode, hbcd, hmatched, effect_hashUnits s, effect_mem s⟩
  · rw [State.complete_of_err _ he]
    exact ⟨fun _ => rfl, fun _ => rfl, fun _ => rfl, fun _ => rfl, fun _ => ⟨rfl, rfl, rfl⟩, fun _ => ⟨rfl, rfl⟩⟩

/-! ### The invariants and the effects of the commands

`{ h with }` says that an update writes only elements of which no invariant speaks; the fields written out after `with` are the
invariants it does touch. -/

/-- `Absorb` keeps `MLEN` a whole number of bytes, also where the count wraps (R46 (d), R154). -/
theorem Sha1Unit.absorb_wholeBytes {u : Sha1Unit} (h : u.mlen.toNat % 8 = 0) (xs : List Byte) :
    (u.absorb xs).mlen.toNat % 8 = 0 := by
  rw [Sha1Unit.absorb_mlen, BitVec.toNat_add, BitVec.toNat_ofNat]
  omega

/-- A digest, or any 20 bytes, stored at the checked `DST` (R151, R153). -/
theorem Inv.storeDigest {s : State} (h : Inv s) {dg : List Byte} (hd : dg.length = 20)
    (hl : s.dst.toNat + 20 ≤ s.memSize) : Inv (s.memWrite s.dst.toNat dg) :=
  h.memWrite (by rwa [hd])

/-- The end of a stream: the context is empty and no key is left (R46 (f), (g), R151, R185). -/
theorem Inv.closeStream {s : State} (h : Inv s) (u : Sha1Unit) (n : Word) {k : Vector Byte 64} (hk : k = zeroBlock) :
    Inv { s with rlen := n, sha := u.closed, kblk := k, st := .idle } :=
  { h with wholeBytes := rfl, keyErased := fun _ => hk, idleEmpty := fun _ => ⟨rfl, rfl⟩ }

/-- The end of a one-shot command: the digest is stored and the stream context is empty (R46 (f), (g)). -/
theorem Inv.deliver {s : State} (h : Inv s) {dg : List Byte} (hd : dg.length = 20)
    (hl : s.dst.toNat + 20 ≤ s.memSize) (work : Work) : Inv (s.deliver dg work) :=
  { h.storeDigest hd hl with wholeBytes := rfl, keyErased := fun _ => rfl, idleEmpty := fun _ => ⟨rfl, rfl⟩ }

theorem Inv.sha1Init {s : State} (h : Inv s) : Inv (sha1InitEffect s) :=
  { h with wholeBytes := rfl, keyErased := fun _ => rfl, idleEmpty := fun hst => nomatch hst }

theorem Inv.sha1Update {s : State} (h : Inv s) : Inv (sha1UpdateEffect s) := by
  rcases sha1UpdateEffect_cases s with ⟨_, he⟩ | ⟨_, _, he⟩ | ⟨hst, _, he⟩ <;> rw [he]
  · exact h.raise _ (by decide)
  · exact h.raise _ (by decide)
  · exact { h.drawn s.len.toNat with
      wholeBytes := Sha1Unit.absorb_wholeBytes h.wholeBytes _
      idleEmpty := fun hidle => absurd hidle hst }

theorem Inv.sha1Final {s : State} (h : Inv s) : Inv (sha1FinalEffect s) := by
  rcases sha1FinalEffect_cases s with ⟨_, he⟩ | ⟨_, _, he⟩ | ⟨hst, hl, he⟩ <;> rw [he]
  · exact h.raise _ (by decide)
  · exact h.raise _ (by decide)
  · have hkey : s.kblk = zeroBlock := h.keyErased (by rw [hst]; decide)
    exact (h.storeDigest (Sha1.length_digest _) hl).closeStream _ 20 ((State.memWrite_kblk ..).trans hkey)

theorem Inv.sha1Block {s : State} (h : Inv s) : Inv (sha1BlockEffect s) := by
  rcases sha1BlockEffect_cases s with ⟨_, he⟩ | ⟨_, he⟩ <;> rw [he]
  · exact h.raise _ (by decide)
  · exact { h.drawn 64 with }

theorem Inv.sha1Hash {s : State} (h : Inv s) : Inv (sha1HashEffect s) := by
  rcases sha1HashEffect_cases s with ⟨_, he⟩ | ⟨_, hl, he⟩ <;> rw [he]
  · exact h.raise _ (by decide)
  · exact (h.drawn s.len.toNat).deliver (Sha1.length_hash _) hl _

theorem Inv.hmacMac {s : State} (h : Inv s) : Inv (hmacMacEffect s) := by
  rcases hmacMacEffect_cases s with ⟨_, he⟩ | ⟨_, _, hl, he⟩ <;> rw [he]
  · exact h.raise _ (by decide)
  · exact ((h.drawn s.keyl.toNat).drawn s.len.toNat).deliver (Sha1.length_hash _) hl _

theorem Inv.hmacInit {s : State} (h : Inv s) : Inv (hmacInitEffect s) := by
  rcases hmacInitEffect_cases s with ⟨_, he⟩ | ⟨_, he⟩ <;> rw [he]
  · exact h.raise _ (by decide)
  · exact { h.drawn s.keyl.toNat with
      wholeBytes := Sha1Unit.absorb_wholeBytes (u := s.sha.opened) rfl _
      keyErased := fun hst => absurd rfl hst
      idleEmpty := fun hst => nomatch hst }

theorem Inv.hmacFinal {s : State} (h : Inv s) : Inv (hmacFinalEffect s) := by
  rcases hmacFinalEffect_cases s with ⟨_, he⟩ | ⟨_, _, he⟩ | ⟨_, hl, he⟩ <;> rw [he]
  · exact h.raise _ (by decide)
  · exact h.raise _ (by decide)
  · exact (h.storeDigest (Sha1.length_digest _) hl).closeStream _ 20 rfl

/-- The text has the length whose range has been checked (R202, R206). -/
theorem Inv.b32Enc {s : State} (h : Inv s) : Inv (b32EncEffect s) := by
  rcases b32EncEffect_cases s with ⟨_, he⟩ | ⟨_, _, _, he⟩ | ⟨_, hl, _, he⟩ <;> rw [he]
  · exact h.raise _ (by decide)
  · exact h.raise _ (by decide)
  · have hlen : s.dst.toNat + (Base32.enc (s.memRead s.src.toNat s.len.toNat)).length ≤ s.memSize := by
      rw [Base32.length_enc, State.length_memRead]; exact hl
    exact { (h.drawn s.len.toNat).memWrite hlen with }

/-- The decoded bytes are at most as many as the range that has been checked holds (R203, R207). -/
theorem Inv.b32Dec {s : State} (h : Inv s) : Inv (b32DecEffect s) := by
  rcases b32DecEffect_cases s with ⟨_, he⟩ | ⟨_, _, _, he⟩ | ⟨_, hl, _, ⟨_, _, he⟩ | ⟨y, hy, he⟩⟩ <;> rw [he]
  · exact h.raise _ (by decide)
  · exact h.raise _ (by decide)
  · exact (h.drawn _).raise _ (by decide)
  · have hcap : y.length ≤ Base32.capacity s.len.toNat := by
      simpa only [State.length_memRead, Base32.capacity] using Base32.length_dec_le hy
    have hlen : s.dst.toNat + y.length ≤ s.memSize := by omega
    exact { (h.drawn s.len.toNat).memWrite hlen with }

theorem Inv.totpSer {s : State} (h : Inv s) : Inv (totpSerEffect s) := by
  rcases totpSerEffect_cases s with ⟨_, he⟩ | ⟨hl, he⟩ <;> rw [he]
  · exact h.raise _ (by decide)
  · exact { h.memWrite (v := be64 s.cnt) hl with }

theorem Inv.totpTrunc {s : State} (h : Inv s) : Inv (totpTruncEffect s) := by
  rcases totpTruncEffect_cases s with ⟨_, he⟩ | ⟨_, he⟩ <;> rw [he]
  · exact h.raise _ (by decide)
  · exact { h.drawn 20 with }

/-- R46 (b). -/
theorem Inv.totpMod {s : State} (h : Inv s) : Inv (totpModEffect s) :=
  { h with
    codeRange := show (Totp.codeOf s.value).toNat ≤ 999999 by rw [Totp.toNat_codeOf]; omega }

/-- R46 (c). -/
theorem Inv.totpDig {s : State} (h : Inv s) : Inv (totpDigEffect s) := by
  rcases totpDigEffect_cases s with ⟨_, he⟩ | ⟨hl, he⟩ <;> rw [he]
  · exact h.raise _ (by decide)
  · have hdigits : ∀ k, k < 6 → bcdDigit (Totp.bcdOf s.code) k ≤ 9 := fun k hk => by
      rw [Totp.bcdDigit_bcdOf _ hk]; exact Nat.le_of_lt_succ (Totp.digit_lt _ _)
    exact { h.memWrite (v := Totp.text s.code) hl with bcdDigits := hdigits }

theorem Inv.totpCmp {s : State} (h : Inv s) : Inv (totpCmpEffect s) := by
  rcases totpCmpEffect_cases s with ⟨_, he⟩ | ⟨_, _, he⟩ | ⟨_, _, he⟩ <;> rw [he]
  · exact { h with }
  · exact h.raise _ (by decide)
  · exact { h.drawn 6 with }

theorem Inv.sysZero {s : State} (h : Inv s) : Inv (sysZeroEffect s) :=
  { h with
    codeRange := Nat.zero_le _
    bcdDigits := (Inv.resetOf s.cfg).bcdDigits
    wholeBytes := rfl
    keyErased := fun _ => rfl
    idleEmpty := fun _ => ⟨rfl, rfl⟩
    memSorted := Memory.wf_zeroed _
    memInside := Memory.below_zeroed _ }

/-- The effect of every command keeps the invariants. -/
theorem Inv.effectOf {s : State} (h : Inv s) (i : Instr) : Inv (effectOf i s) :=
  match i with
  | .nop => h
  | .sysZero => h.sysZero
  | .sha1Init => h.sha1Init
  | .sha1Update => h.sha1Update
  | .sha1Final => h.sha1Final
  | .sha1Block => h.sha1Block
  | .sha1Hash => h.sha1Hash
  | .hmacMac => h.hmacMac
  | .hmacInit => h.hmacInit
  | .hmacFinal => h.hmacFinal
  | .b32Enc => h.b32Enc
  | .b32Dec => h.b32Dec
  | .totpCtr => { h with }
  | .totpSer => h.totpSer
  | .totpTrunc => h.totpTrunc
  | .totpMod => h.totpMod
  | .totpDig => h.totpDig
  | .totpCmp => h.totpCmp

/-- A complete step keeps the invariants if its effect does; a discarded command has none (R272, R273). -/
theorem Inv.complete {s : State} (h : Inv s) {effect : State → State} (he : Inv (effect s)) :
    Inv (s.complete effect) := by
  unfold State.complete
  split
  · exact h.finished
  · exact he.finished

/-- The sequencer's step, of a legal or of an illegal word (R272, R293). -/
theorem Inv.seqStep {s t : State} (h : Inv s) (hs : seqStep s = .next t) : Inv t := by
  unfold Machine.seqStep at hs
  split at hs
  · rw [exec_next hs]
    exact h.complete (h.effectOf _)
  · cases hs
    exact h.complete (h.raise _ (by decide))

/-! ### The invariants and the port -/

theorem Inv.tookEvent {s : State} (h : Inv s) (rest : List Event) : Inv (s.tookEvent rest) := { h with }

/-- A pointer reduced modulo `MEMSZ` names a byte (R46 (i)). -/
theorem State.pointer_lt (s : State) (n : Nat) : (BitVec.ofNat 16 (n % s.memSize)).toNat < s.memSize := by
  rw [State.toNat_pointer]
  exact Nat.mod_lt _ (Nat.lt_of_lt_of_le (show 0 < 256 by decide) s.cfg.le_memSize)

theorem Inv.bumpMaddr {s : State} (h : Inv s) : Inv s.bumpMaddr := { h with pointerInside := s.pointer_lt _ }

theorem Inv.clearDone {s : State} (h : Inv s) (bit : Bool) : Inv (s.clearDone bit) := by
  cases bit
  · exact h
  · exact { h with busyNotDone := fun _ => rfl }

theorem Inv.clearErr {s : State} (h : Inv s) (bit : Bool) : Inv (s.clearErr bit) := by
  cases bit
  · exact h
  · exact { h with noRecord := fun _ => ⟨rfl, rfl⟩, errorCoded := fun he => nomatch he }

theorem Inv.portRead {s : State} (h : Inv s) (a : BitVec 6) : Inv (s.portRead a) := by
  unfold State.portRead
  split
  · exact { (h.drawn 1).bumpMaddr with }
  · exact { h with }
  · exact { h with }

theorem Inv.writeReg {s : State} (h : Inv s) (r : Reg) (w : Word) : Inv (s.writeReg r w) :=
  match r with
  | .status => (h.clearDone _).clearErr _
  | .cmd => { h with busyNotDone := fun _ => rfl }
  | .maddr => { h with pointerInside := s.pointer_lt _ }
  | .mdata => (h.memWrite (v := [w.extractLsb' 0 8]) h.pointerInside).bumpMaddr
  | .ctrl | .src | .len | .dst | .keya | .keyl | .nowl | .nowh | .offs | .cntl | .cnth => { h with }
  | .id | .param | .rlen | .einfo | .value | .code | .bcd | .h0 | .h1 | .h2 | .h3 | .h4 | .mlenl | .mlenh => h

theorem Inv.portWrite {s : State} (h : Inv s) (a : BitVec 6) (w : Word) : Inv (s.portWrite a w) := by
  unfold State.portWrite
  split
  · exact h.writeReg _ w
  · exact h

theorem Inv.resetBlock (s : State) : Inv s.resetBlock := { Inv.resetOf s.cfg with }

/-! ### The invariants and the step -/

theorem State.readReady_eq_false {s : State} {a : BitVec 6} : s.readReady a = false ↔ s.busy = true ∧ a ≠ 3 := by
  simp [State.readReady, Reg.index]

theorem State.writeReady_eq_false {s : State} : s.writeReady = false ↔ s.busy = true := by simp [State.writeReady]

theorem State.tookEvent_eq_self {s : State} {rest : List Event} (h : s.agenda = rest) : s.tookEvent rest = s := by
  subst h; rfl

/-- Everything a step can do (R270), with the agenda `rest` that it leaves: the sequencer's step, nothing in an idle block (R313),
a reset, a completed read or a completed write. -/
theorem step_cases {s t : State} (h : step s = .next t) :
    ∃ rest, (SeqTurn s rest ∧ seqStep (s.tookEvent rest) = .next t) ∨
      (s.busy = false ∧ (s.agenda = [] ∧ rest = [] ∨ s.agenda = .seq :: rest) ∧ t = s.tookEvent rest) ∨
      (s.agenda = .reset :: rest ∧ t = (s.tookEvent rest).resetBlock) ∨
      (∃ a, s.agenda = .read a :: rest ∧ s.readReady a = true ∧ t = (s.tookEvent rest).portRead a) ∨
      (∃ a w, s.agenda = .write a w :: rest ∧ s.writeReady = true ∧ t = (s.tookEvent rest).portWrite a w) := by
  unfold step advance at h
  split at h
  next ha =>
    split at h
    next hb => exact ⟨[], .inl ⟨⟨hb, .inl ⟨ha, rfl⟩⟩, by rwa [State.tookEvent_eq_self ha]⟩⟩
    next hb =>
      cases h
      exact ⟨[], .inr (.inl ⟨Bool.eq_false_iff.2 hb, .inl ⟨ha, rfl⟩, (State.tookEvent_eq_self ha).symm⟩)⟩
  next rest ha => cases h; exact ⟨rest, .inr (.inr (.inl ⟨ha, rfl⟩))⟩
  next rest ha =>
    split at h
    next hb => exact ⟨rest, .inl ⟨⟨hb, .inr (.inl ha)⟩, h⟩⟩
    next hb => cases h; exact ⟨rest, .inr (.inl ⟨Bool.eq_false_iff.2 hb, .inr ha, rfl⟩)⟩
  next a rest ha =>
    split at h
    next hr => cases h; exact ⟨rest, .inr (.inr (.inr (.inl ⟨a, ha, hr, rfl⟩)))⟩
    next hr =>
      obtain ⟨hb, h3⟩ := State.readReady_eq_false.1 (Bool.eq_false_iff.2 hr)
      exact ⟨s.agenda, .inl ⟨⟨hb, .inr (.inr (.inl ⟨a, rest, ha, h3, rfl⟩))⟩, h⟩⟩
  next a w rest ha =>
    split at h
    next hr => cases h; exact ⟨rest, .inr (.inr (.inr (.inr ⟨a, w, ha, hr, rfl⟩)))⟩
    next hr =>
      have hb := State.writeReady_eq_false.1 (Bool.eq_false_iff.2 hr)
      exact ⟨s.agenda, .inl ⟨⟨hb, .inr (.inr (.inr ⟨a, w, rest, ha, rfl⟩))⟩, h⟩⟩

/-- Settles O15: each of the things a step can do keeps the invariants. -/
theorem stepKeepsTheInvariants : Obligations.StepKeepsTheInvariants := by
  intro s t h hs
  obtain ⟨rest, ⟨_, hseq⟩ | ⟨_, _, rfl⟩ | ⟨_, rfl⟩ | ⟨a, _, _, rfl⟩ | ⟨a, w, _, _, rfl⟩⟩ := step_cases hs
  · exact (h.tookEvent rest).seqStep hseq
  · exact h.tookEvent rest
  · exact Inv.resetBlock _
  · exact (h.tookEvent rest).portRead a
  · exact (h.tookEvent rest).portWrite a w

end Sys2Proof.Machine
end

section
/-! The family of the host port (spec/20_memory.md R75 to R78): the interlock, and what a completed read and a completed write of
each word index do. -/

namespace Sys2Proof.Machine

/-! ### The step and the presented transaction -/

theorem step_read_of_ready {s : State} {a : BitVec 6} {rest : List Event} (hr : s.readReady a = true)
    (ha : s.agenda = .read a :: rest) : step s = .next ((s.tookEvent rest).portRead a) := by
  unfold step advance
  rw [ha]
  exact if_pos hr

theorem step_write_of_idle {s : State} {a : BitVec 6} {w : Word} {rest : List Event} (hb : s.busy = false)
    (ha : s.agenda = .write a w :: rest) : step s = .next ((s.tookEvent rest).portWrite a w) := by
  have hr : s.writeReady = true := by simp [State.writeReady, hb]
  unfold step advance
  rw [ha]
  exact if_pos hr

theorem State.readReady_of_idle {s : State} (a : BitVec 6) (hb : s.busy = false) : s.readReady a = true := by
  simp [State.readReady, hb]

/-- Any transaction but a read of `STATUS` is held while a command is in flight: the turn is the sequencer's, and the agenda
stays (R77). -/
theorem seqTurn_of_held {s : State} {e : Event} {rest : List Event} (hb : s.busy = true) (ha : s.agenda = e :: rest)
    (he : (∃ a, e = .read a ∧ a ≠ 3) ∨ ∃ a w, e = .write a w) : SeqTurn s s.agenda := by
  obtain ⟨a, rfl, h3⟩ | ⟨a, w, rfl⟩ := he
  · exact ⟨hb, .inr (.inr (.inl ⟨a, rest, ha, h3, rfl⟩))⟩
  · exact ⟨hb, .inr (.inr (.inr ⟨a, w, rest, ha, rfl⟩))⟩

/-- The sequencer's step of any word, legal or illegal, is a complete step whose effect leaves the agenda (R272, R293). -/
theorem seqStep_eq_complete (s : State) :
    ∃ f : State → State, seqStep s = .next (s.complete f) ∧ (f s).agenda = s.agenda := by
  unfold seqStep
  split
  next i _ => exact ⟨effectOf i, exec_eq i s, (effect_keeps i s).2.1⟩
  next => exact ⟨fun u => u.raise .illcmd u.cw, rfl, rfl⟩

theorem State.complete_agenda {s : State} {f : State → State} (hf : (f s).agenda = s.agenda) :
    (s.complete f).agenda = s.agenda := by
  cases he : s.err
  · rw [State.complete_of_noErr f he, State.finished_agenda, hf]
  · rw [State.complete_of_err f he, State.finished_agenda]

/-- Settles O17: `ready` is read off its definition, a `STATUS` read is ready, and what is held leaves the step to the
sequencer. -/
theorem portInterlock : Obligations.PortInterlock := by
  refine ⟨fun s => ⟨fun _ => State.readReady_eq_false, State.writeReady_eq_false⟩, ?statusRead, ?held⟩
  case statusRead =>
    intro s rest _ ha
    have hr : s.readReady 3 = true := by simp [State.readReady, Reg.index]
    exact step_read_of_ready hr ha
  case held =>
    intro s e rest hb ha he
    obtain ⟨f, hseq, hagenda⟩ := seqStep_eq_complete s
    exact ⟨s.complete f, (step_seqTurn (seqTurn_of_held hb ha he)).trans hseq, State.complete_agenda hagenda, rfl, rfl⟩

/-! ### The register map -/

/-- A register stands at its own word index and at no other (R22). -/
theorem Reg.eq_index_of_at? {a : BitVec 6} {r : Reg} (h : Reg.at? a = some r) : a = r.index := by
  have map_back : ∀ a : BitVec 6, ∀ r ∈ Reg.at? a, a = r.index := by decide
  exact map_back a r h

theorem Reg.le_of_at?_none {a : BitVec 6} (h : Reg.at? a = none) : 29 ≤ a.toNat := by
  have mapped : ∀ a : BitVec 6, Reg.at? a = none → 29 ≤ a.toNat := by decide
  exact mapped a h

/-! ### Completed reads -/

/-- The data of a register is what its row of R76 says. -/
theorem State.readData_eq_portWord (s : State) {r : Reg} (hr : r ≠ .mdata) : s.readData r = portWord s r.index.toNat :=
  match r with
  | .id | .ctrl | .status | .cmd | .src | .len | .dst | .keya | .keyl | .rlen | .einfo | .offs => rfl
  | .param => Config.paramWord_eq s.cfg
  | .maddr => (BitVec.ofNat_toNat ..).symm
  | .mdata => absurd rfl hr
  | .nowl => lowWord_eq s.now
  | .nowh => highWord_eq s.now
  | .cntl => lowWord_eq s.cnt
  | .cnth => highWord_eq s.cnt
  | .value | .code | .bcd => (BitVec.ofNat_toNat ..).symm
  | .h0 | .h1 | .h2 | .h3 | .h4 => rfl
  | .mlenl => lowWord_eq s.sha.mlen
  | .mlenh => highWord_eq s.sha.mlen

theorem portWord_of_unmapped (s : State) {n : Nat} (h : 29 ≤ n) : portWord s n = 0 := by
  obtain ⟨k, rfl⟩ := Nat.exists_eq_add_of_le' h
  rfl

/-- A read of any index but that of `MDATA` gives the table's word and has no side effect (R76). -/
theorem State.portRead_of_ne_mdata (s : State) {a : BitVec 6} (ha : a ≠ 13) :
    s.portRead a = { s with rdata := some (portWord s a.toNat) } := by
  unfold State.portRead
  split
  next hat => exact absurd (Reg.eq_index_of_at? hat) ha
  next r hr hat => rw [Reg.eq_index_of_at? hat, s.readData_eq_portWord hr]
  next hat => rw [portWord_of_unmapped s (Reg.le_of_at?_none hat)]

/-- Settles O19: the table of R76 row by row, and for `MDATA` the byte at the pointer and the pointer's advance. -/
theorem portReadReturnsRegister : Obligations.PortReadReturnsRegister := by
  intro s a rest hb hagenda
  have hstep := step_read_of_ready (State.readReady_of_idle a hb) hagenda
  refine ⟨fun ha => ?otherRegister, ?mdata⟩
  case otherRegister => rw [hstep, State.portRead_of_ne_mdata _ ha]; rfl
  case mdata =>
    rintro rfl
    refine ⟨_, s.memByte s.maddr.toNat 0, hstep, ?_, s.toNat_pointer _, fun _ => State.memByte_of_written⟩
    rw [BitVec.ofNat_toNat]
    rfl

/-! ### Completed writes -/

/-- Writing `STATUS` clears the flags whose bits are 1 (R30, R78). -/
theorem State.writeReg_status (s : State) (w : Word) :
    s.writeReg .status w = { s with
      done := if w.getLsbD 1 then false else s.done
      err := if w.getLsbD 2 then false else s.err
      errcode := if w.getLsbD 2 then .noError else s.errcode
      einfo := if w.getLsbD 2 then 0 else s.einfo } := by
  unfold State.writeReg State.clearErr State.clearDone
  cases w.getLsbD 1 <;> cases w.getLsbD 2 <;> rfl

/-- The indices at which R78 has no effect: the read-only registers and the unmapped words (R23). -/
def ReadOnlyIndex (n : Nat) : Prop := n ∈ [0, 1, 10, 11] ∨ 19 ≤ n

theorem State.writeReg_readOnly (s : State) (w : Word) {r : Reg} (h : ReadOnlyIndex r.index.toNat) :
    s.writeReg r w = s :=
  match r with
  | .id | .param | .rlen | .einfo | .value | .code | .bcd | .h0 | .h1 | .h2 | .h3 | .h4 | .mlenl | .mlenh => rfl
  | .ctrl | .status | .cmd | .src | .len | .dst | .keya | .keyl | .maddr | .mdata | .nowl | .nowh | .offs | .cntl
  | .cnth => absurd h (by unfold ReadOnlyIndex; decide)

theorem State.portWrite_readOnly (s : State) (w : Word) {a : BitVec 6} (h : ReadOnlyIndex a.toNat) :
    s.portWrite a w = s := by
  unfold State.portWrite
  split
  next r hat => exact s.writeReg_readOnly w (Reg.eq_index_of_at? hat ▸ h)
  next => rfl

/-- Settles O20: the table of R78 row by row. -/
theorem portWriteStoresRegister : Obligations.PortWriteStoresRegister := by
  intro s a w rest hb hagenda
  refine ⟨(s.tookEvent rest).portWrite a w, step_write_of_idle hb hagenda, ?ctrl, ?status, ?cmd, ?src, ?len, ?dst, ?keya,
    ?keyl, ?maddr, ?mdata, ?nowl, ?nowh, ?offs, ?cntl, ?cnth, ?readOnly⟩
  case ctrl | cmd | src | len | dst | keya | keyl | offs => rintro rfl; rfl
  case status => rintro rfl; exact State.writeReg_status _ w
  case maddr => rintro rfl; exact ⟨rfl, s.toNat_pointer _⟩
  case mdata => rintro rfl; exact ⟨rfl, s.toNat_pointer _, stored_write _ _ _⟩
  case nowl => rintro rfl; exact ⟨rfl, toNat_withLow s.now w⟩
  case nowh => rintro rfl; exact ⟨rfl, toNat_withHigh s.now w⟩
  case cntl => rintro rfl; exact ⟨rfl, toNat_withLow s.cnt w⟩
  case cnth => rintro rfl; exact ⟨rfl, toNat_withHigh s.cnt w⟩
  case readOnly => exact State.portWrite_readOnly _ w

end Sys2Proof.Machine
end

section
/-! The family of the encoding (spec/30_encoding.md): the command words and the decoder (R120 to R124), and the padded message
(R102). -/

namespace Sys2Proof.Machine

/-! ### The two fields of a command word -/

/-- The fields `ZERO` and `OPC` are the whole word (R120). -/
theorem zeroField_append_opcField (w : Word) : zeroField w ++ opcField w = w := by
  apply BitVec.eq_of_toNat_eq
  have := w.isLt
  simp only [toNat_append_eq, zeroField, opcField, BitVec.extractLsb'_toNat, Nat.shiftRight_eq_div_pow]
  omega

@[simp] theorem toNat_encode (i : Instr) : (encode i).toNat = (opcode i).toNat := by
  rw [encode, toNat_append_eq]
  simp

/-! ### The decoder -/

/-- What was shown command by command in Laws/Encoding, for any command. -/
theorem encodingStatement (i : Instr) : Laws.Encoding.Statement i :=
  match i with
  | .nop => Laws.Encoding.nop
  | .sysZero => Laws.Encoding.sysZero
  | .sha1Init => Laws.Encoding.sha1Init
  | .sha1Update => Laws.Encoding.sha1Update
  | .sha1Final => Laws.Encoding.sha1Final
  | .sha1Block => Laws.Encoding.sha1Block
  | .sha1Hash => Laws.Encoding.sha1Hash
  | .hmacMac => Laws.Encoding.hmacMac
  | .hmacInit => Laws.Encoding.hmacInit
  | .hmacFinal => Laws.Encoding.hmacFinal
  | .b32Enc => Laws.Encoding.b32Enc
  | .b32Dec => Laws.Encoding.b32Dec
  | .totpCtr => Laws.Encoding.totpCtr
  | .totpSer => Laws.Encoding.totpSer
  | .totpTrunc => Laws.Encoding.totpTrunc
  | .totpMod => Laws.Encoding.totpMod
  | .totpDig => Laws.Encoding.totpDig
  | .totpCmp => Laws.Encoding.totpCmp

theorem decode_encode (i : Instr) : decode (encode i) = .ok i := by
  obtain ⟨_, _, _, hdecode⟩ := encodingStatement i
  exact hdecode

theorem legalWord_encode (i : Instr) : legalWord (encode i) = true := by
  obtain ⟨_, _, hlegal, _⟩ := encodingStatement i
  exact hlegal

/-- A word that decodes to a command has that command's fields. -/
theorem fields_of_decode {w : Word} {i : Instr} (h : decode w = .ok i) : zeroField w = 0 ∧ opcField w = opcode i := by
  unfold decode at h
  split at h
  next => nomatch h
  next hzero =>
    refine ⟨not_not.mp hzero, BitVec.eq_of_toNat_eq ?_⟩
    split at h <;> cases h <;> assumption

theorem decode_eq_ok_iff (w : Word) (i : Instr) : decode w = .ok i ↔ w = encode i := by
  constructor
  case mp =>
    intro h
    obtain ⟨hzero, hopc⟩ := fields_of_decode h
    rw [encode, ← hzero, ← hopc, zeroField_append_opcField]
  case mpr => rintro rfl; exact decode_encode i

/-! ### The legality test -/

/-- Each of the 18 defined opcodes is the opcode of a command (R121). -/
theorem exists_opcode_of_mem_definedOpcodes {n : Nat} (h : n ∈ definedOpcodes) : ∃ i, n = (opcode i).toNat := by
  have opcodes_of_commands : definedOpcodes = [Instr.nop, .sysZero, .sha1Init, .sha1Update, .sha1Final, .sha1Block, .sha1Hash,
      .hmacMac, .hmacInit, .hmacFinal, .b32Enc, .b32Dec, .totpCtr, .totpSer, .totpTrunc, .totpMod, .totpDig,
      .totpCmp].map fun i => (opcode i).toNat := rfl
  rw [opcodes_of_commands, List.mem_map] at h
  obtain ⟨i, _, hi⟩ := h
  exact ⟨i, hi.symm⟩

/-- The two checks of R123 as conditions on the number that the word is. -/
theorem legalWord_iff (w : Word) : legalWord w = true ↔ w.toNat / 256 = 0 ∧ w.toNat % 256 ∈ definedOpcodes := by
  simp [legalWord, zeroFieldOk, opcodeOk]

theorem legalWord_iff_exists_encode (w : Word) : legalWord w = true ↔ ∃ i, w = encode i := by
  constructor
  case mp =>
    intro h
    obtain ⟨hzero, hopc⟩ := (legalWord_iff w).mp h
    obtain ⟨i, hi⟩ := exists_opcode_of_mem_definedOpcodes hopc
    refine ⟨i, BitVec.eq_of_toNat_eq ?_⟩
    rw [toNat_encode, ← hi]
    omega
  case mpr => rintro ⟨i, rfl⟩; exact legalWord_encode i

/-- Settles O1: the decoder and the legality test each accept exactly the encodings. -/
theorem legalWordsAreTheEncodedCommands : Obligations.LegalWordsAreTheEncodedCommands :=
  ⟨decode_eq_ok_iff, legalWord_iff_exists_encode⟩

/-- Settles O2: the legal words are encodings, and the two illegal ones are decoded. -/
theorem tableWordsDecode : Obligations.TableWordsDecode :=
  ⟨decode_encode .sysZero, decode_encode .sha1Final, decode_encode .hmacMac, decode_encode .b32Dec, decode_encode .totpCmp,
    by decide, by decide⟩

/-! ### The padded message -/

/-- Byte `j` of `be64(v)` is byte `7 - j` of the number, counted from the least significant (R7, R104). -/
theorem getD_be64 (v : DWord) {j : Nat} (hj : j < 8) :
    (be64 v).getD j 0 = BitVec.ofNat 8 (v.toNat / 2 ^ (8 * (7 - j))) := by
  have hfield : (be64 v).getD j 0 = v.extractLsb' (8 * (7 - j)) 8 := by
    match j, hj with
    | 0, _ | 1, _ | 2, _ | 3, _ | 4, _ | 5, _ | 6, _ | 7, _ => rfl
  rw [hfield, BitVec.extractLsb', Nat.shiftRight_eq_div_pow]

/-- Settles O37: `k` and the length field are those of `Pad` (R142). -/
theorem paddedMessageLayout : Obligations.PaddedMessageLayout := by
  intro m
  refine ⟨(119 - m.length % 64) % 64, Nat.mod_lt _ (by decide), by omega, ?wholeBlocks,
    be64 (BitVec.ofNat 64 (8 * m.length)), ?layout, length_be64 _, fun j hj => ?lengthByte⟩
  case wholeBlocks => rw [Sha1.length_padded, Sha1.length_pad]; omega
  case layout => simp only [Sha1.padded, Sha1.pad, zeros, List.append_assoc]
  case lengthByte => rw [getD_be64 _ hj, BitVec.toNat_ofNat]

end Sys2Proof.Machine
end

section
/-! The family of the SHA-1 unit (spec/40_sha1.md): the schedule and the rounds (R143 to R147), the stream helpers `Absorb` and
`Finish` (R154, R155), the five commands (R149 to R153), and what a whole stream delivers (R157). -/

namespace Sys2Proof.Machine

/-! ### The schedule -/

theorem fromBe32_eq_ofNat (b : List Byte) :
    fromBe32 b = BitVec.ofNat 32 ((b.getD 0 0).toNat * 2 ^ 24 + (b.getD 1 0).toNat * 2 ^ 16 + (b.getD 2 0).toNat * 2 ^ 8 +
      (b.getD 3 0).toNat) := by
  rw [← toNat_fromBe32, BitVec.ofNat_toNat, BitVec.setWidth_eq]

@[simp] theorem Sha1.length_blockWords (blk : List Byte) : (Sha1.blockWords blk).length = 16 := by simp [Sha1.blockWords]

/-- Word `j` of a block as the sum of R7 (R143). -/
theorem Sha1.getD_blockWords (blk : List Byte) {j : Nat} (hj : j < 16) :
    (Sha1.blockWords blk).getD j 0 = BitVec.ofNat 32
      ((blk.getD (4 * j) 0).toNat * 2 ^ 24 + (blk.getD (4 * j + 1) 0).toNat * 2 ^ 16 +
        (blk.getD (4 * j + 2) 0).toNat * 2 ^ 8 + (blk.getD (4 * j + 3) 0).toNat) := by
  have hword : (Sha1.blockWords blk).getD j 0 = fromBe32 ((blk.drop (4 * j)).take 4) := by
    rw [Sha1.blockWords, List.getD_eq_getElem?_getD, List.getElem?_map, getElem?_chunks _ _ _ hj]
    rfl
  have hbyte : ∀ k, k < 4 → ((blk.drop (4 * j)).take 4).getD k 0 = blk.getD (4 * j + k) 0 := fun k hk => by
    rw [List.getD_eq_getElem?_getD, List.getElem?_take_of_lt hk, List.getElem?_drop, List.getD_eq_getElem?_getD]
  rw [hword, fromBe32_eq_ofNat, hbyte 0 (by decide), hbyte 1 (by decide), hbyte 2 (by decide), hbyte 3 (by decide),
    Nat.add_zero]

theorem Sha1.expand_add (m n : Nat) (ws : List Word) : Sha1.expand (m + n) ws = Sha1.expand m (Sha1.expand n ws) := by
  induction m with
  | zero => rw [Nat.zero_add]; rfl
  | succ m ih => rw [Nat.succ_add, Sha1.expand_succ, Sha1.expand_succ, ih]

/-- After `n` steps the words are the first `16 + n` of the schedule, newest first (R144). -/
theorem Sha1.getD_expand (blk : List Byte) {n i : Nat} (hn : n ≤ 64) (hi : i < 16 + n) :
    (Sha1.expand n (Sha1.blockWords blk).reverse).getD i 0 = (Sha1.schedule blk).getD (16 + n - (i + 1)) 0 := by
  have hlen : (Sha1.expand n (Sha1.blockWords blk).reverse).length = 16 + n := by
    obtain ⟨new, hnew, hcount⟩ := Sha1.expand_append n (Sha1.blockWords blk).reverse
    rw [hnew, List.length_append, hcount, List.length_reverse, Sha1.length_blockWords, Nat.add_comm]
  obtain ⟨later, hlater, _⟩ := Sha1.expand_append (64 - n) (Sha1.expand n (Sha1.blockWords blk).reverse)
  have hschedule : Sha1.schedule blk = (Sha1.expand n (Sha1.blockWords blk).reverse).reverse ++ later.reverse := by
    rw [Sha1.schedule, ← List.reverse_append, ← hlater, ← Sha1.expand_add, Nat.sub_add_cancel hn]
  rw [hschedule, List.getD_append _ _ _ _ (by rw [List.length_reverse, hlen]; omega), List.getD_reverse _ (by omega), hlen]
  congr 1
  omega

/-- The schedule begins with the words of the block (R144). -/
theorem Sha1.getD_schedule_of_lt (blk : List Byte) {j : Nat} (hj : j < 16) :
    (Sha1.schedule blk).getD j 0 = (Sha1.blockWords blk).getD j 0 := by
  obtain ⟨later, hlater, _⟩ := Sha1.expand_append 64 (Sha1.blockWords blk).reverse
  rw [Sha1.schedule, hlater, List.reverse_append, List.reverse_reverse, List.getD_append _ _ _ _ (by simpa using hj)]

/-- Settles O35: word `16 + n` is the one that step `n` computes from the words before it. -/
theorem scheduleFollowsRecurrence : Obligations.ScheduleFollowsRecurrence := by
  refine fun blk _ => ⟨Sha1.length_schedule blk,
    fun j hj => (Sha1.getD_schedule_of_lt blk hj).trans (Sha1.getD_blockWords blk hj), fun j hj hj' => ?recurrence⟩
  obtain ⟨n, rfl⟩ := Nat.exists_eq_add_of_le hj
  have known {i : Nat} := Sha1.getD_expand blk (n := n) (i := i) (by omega)
  calc (Sha1.schedule blk).getD (16 + n) 0
    _ = (Sha1.expand (n + 1) (Sha1.blockWords blk).reverse).getD 0 0 :=
      (Sha1.getD_expand blk (n := n + 1) (i := 0) (by omega) (by omega)).symm
    _ = Sha1.nextWord (Sha1.expand n (Sha1.blockWords blk).reverse) := by
      rw [Sha1.expand_succ, List.getD_cons_zero]
    _ = _ := by
      rw [Sha1.nextWord, rotl_eq _ (by decide), known (by omega), known (by omega), known (by omega), known (by omega)]

/-! ### The rounds -/

/-- The rows of R145. -/
theorem Sha1.f_k_rows (t : Nat) (b c d : Word) :
    (t < 20 → Sha1.f t b c d = (b &&& c) ||| (~~~b &&& d) ∧ Sha1.k t = 0x5A827999) ∧
    (20 ≤ t → t < 40 → Sha1.f t b c d = b ^^^ c ^^^ d ∧ Sha1.k t = 0x6ED9EBA1) ∧
    (40 ≤ t → t < 60 → Sha1.f t b c d = (b &&& c) ||| (b &&& d) ||| (c &&& d) ∧ Sha1.k t = 0x8F1BBCDC) ∧
    (60 ≤ t → Sha1.f t b c d = b ^^^ c ^^^ d ∧ Sha1.k t = 0xCA62C1D6) := by
  unfold Sha1.f Sha1.k
  refine ⟨fun hlt => ⟨if_pos hlt, if_pos hlt⟩, fun hge hlt => ?_, fun hge hlt => ?_, fun hge => ?_⟩
  · simp only [hge.not_gt, hlt, if_false, if_true, and_self]
  · have h20 : ¬t < 20 := by omega
    simp only [h20, hge.not_gt, hlt, if_false, if_true, and_self]
  · have h20 : ¬t < 20 := by omega
    have h40 : ¬t < 40 := by omega
    simp only [h20, h40, hge.not_gt, if_false, and_self]

/-- The update of R146, with the rotations of the library. -/
theorem Sha1.step_eq (t : Nat) (v : Working) (wt : Word) :
    Sha1.step t v wt =
      ⟨v.a.rotateLeft 5 + Sha1.f t v.b v.c v.d + v.e + Sha1.k t + wt, v.a, v.b.rotateLeft 30, v.c, v.d⟩ := by
  rw [Sha1.step, rotl_eq _ (by decide), rotl_eq _ (by decide)]

theorem Sha1.compress_of_finalVars {h : Vector Word 5} {blk : List Byte} {v : Working} (hv : v = Sha1.finalVars h blk) :
    Sha1.compress h blk = #v[h[0] + v.a, h[1] + v.b, h[2] + v.c, h[3] + v.d, h[4] + v.e] := by
  rw [hv, Sha1.compress]

/-- Settles O36: the working words are those of the trace of the rounds over the schedule. -/
theorem compressRunsEightyRounds : Obligations.CompressRunsEightyRounds := by
  intro h blk
  obtain ⟨v, hfirst, hround, hlast⟩ := Sha1.rounds_trace (Sha1.schedule blk) (Sha1.load h)
  rw [Sha1.length_schedule] at hround hlast
  refine ⟨v, hfirst, fun t ht => ?round, Sha1.compress_of_finalVars hlast⟩
  obtain ⟨row0, row20, row40, row60⟩ := Sha1.f_k_rows t (v t).b (v t).c (v t).d
  exact ⟨Sha1.f t (v t).b (v t).c (v t).d, Sha1.k t, row0, row20, row40, row60,
    (hround t ht).trans (Sha1.step_eq t (v t) _)⟩

/-! ### `Absorb` -/

theorem bufCount_add_eight (n : DWord) : (bufCount (n + 8)).val = ((bufCount n).val + 1) % 64 := by
  rw [bufCount_val, bufCount_val, BitVec.toNat_add, show (8 : DWord).toNat = 8 from rfl]
  omega

/-- A byte that does not fill the block is stored and counted (R154). -/
theorem Sha1Unit.absorbByte_of_lt {u : Sha1Unit} (x : Byte) (h : (bufCount u.mlen).val < 63) :
    u.absorbByte x = { u with buf := u.buf.set (bufCount u.mlen) x, mlen := u.mlen + 8 } := by
  have hroom : bufCount (u.mlen + 8) ≠ 0 := by
    rw [Fin.ne_iff_vne, bufCount_add_eight, Fin.val_zero]
    omega
  exact if_neg hroom

/-- The 64th byte of a block is stored and counted, and the block is compressed (R154). -/
theorem Sha1Unit.absorbByte_of_last {u : Sha1Unit} (x : Byte) (h : (bufCount u.mlen).val = 63) :
    u.absorbByte x = Sha1Unit.compress { u with buf := u.buf.set (bufCount u.mlen) x, mlen := u.mlen + 8 }
      (u.buf.set (bufCount u.mlen) x).toList := by
  have hfull : bufCount (u.mlen + 8) = 0 := by
    rw [Fin.ext_iff, bufCount_add_eight, h]
    rfl
  exact if_pos hfull

theorem Sha1Unit.absorb_append (u : Sha1Unit) (xs ys : List Byte) : u.absorb (xs ++ ys) = (u.absorb xs).absorb ys :=
  List.foldl_append

theorem Sha1Unit.absorb_singleton (u : Sha1Unit) (x : Byte) : u.absorb [x] = u.absorbByte x := rfl

/-- Settles O30: the index of a byte is `BUFN`, and the byte at index 63 is the last of its block. -/
theorem absorbIsByteByByte : Obligations.AbsorbIsByteByByte := by
  refine ⟨fun u xs ys => ⟨rfl, u.absorb_append xs ys⟩, fun u x n hn hindex => ?_⟩
  obtain rfl : n = (bufCount u.mlen).val := hindex.trans (bufCount_val _).symm
  refine ⟨fun hlt => Sha1Unit.absorbByte_of_lt x hlt, fun hlast => ?_⟩
  rw [Sha1Unit.absorb_singleton, Sha1Unit.absorbByte_of_last x hlast]
  rfl

/-! ### `Finish` -/

theorem zeros_add (a b : Nat) : zeros (a + b) = zeros a ++ zeros b := List.replicate_add ..

/-- With at most 55 bytes buffered, the padding fits the block (R155). -/
theorem Sha1Unit.finish_h_of_one {u : Sha1Unit} {r : Nat} (hr : (bufCount u.mlen).val = r) (h : r ≤ 55) :
    u.finish.h = Sha1.compress u.h (u.buf.toList.take r ++ [0x80] ++ zeros (55 - r) ++ be64 u.mlen) := by
  have htext : u.lastBlocks = u.buf.toList.take r ++ [0x80] ++ zeros (55 - r) ++ be64 u.mlen := by
    simp only [Sha1Unit.lastBlocks, Sha1.pad, hr, List.append_assoc, show (119 - r) % 64 = 55 - r by omega]
  have hlen := u.length_lastBlocks
  rw [hr, if_pos (by omega)] at hlen
  rw [Sha1Unit.finish, if_pos (by omega), Sha1Unit.compress_h, List.take_of_length_le hlen.le, htext]

/-- With 56 bytes buffered or more, the length goes to a second block (R155). -/
theorem Sha1Unit.finish_h_of_two {u : Sha1Unit} {r : Nat} (hr : (bufCount u.mlen).val = r) (h : 56 ≤ r) :
    u.finish.h = Sha1.compress (Sha1.compress u.h (u.buf.toList.take r ++ [0x80] ++ zeros (63 - r)))
      (zeros 56 ++ be64 u.mlen) := by
  have hlt : r < 64 := hr ▸ (bufCount u.mlen).isLt
  have htext : u.lastBlocks = (u.buf.toList.take r ++ [0x80] ++ zeros (63 - r)) ++ (zeros 56 ++ be64 u.mlen) := by
    simp only [Sha1Unit.lastBlocks, Sha1.pad, hr, List.append_assoc, show (119 - r) % 64 = 63 - r + 56 by omega, zeros_add]
  have hfirst : (u.buf.toList.take r ++ [0x80] ++ zeros (63 - r)).length = 64 := by
    simp only [List.length_append, List.length_take, Vector.length_toList, List.length_singleton, length_zeros]
    omega
  rw [Sha1Unit.finish, if_neg (by omega), Sha1Unit.compress_h, Sha1Unit.compress_h, htext, List.take_left' hfirst,
    List.drop_left' hfirst, List.take_of_length_le (i := 64) (by simp)]

/-- Settles O31: one block or two, and no compression writes `MLEN` or `BUF`. -/
theorem finishPadsAndCompresses : Obligations.FinishPadsAndCompresses := fun u =>
  ⟨u.finish_mlen, u.finish_buf, Sha1Unit.finish_h_of_one (bufCount_val _), Sha1Unit.finish_h_of_two (bufCount_val _)⟩

/-! ### The commands, branch by branch

A digest is generalized before two states are compared by `rfl`, which would otherwise compute it. -/

/-- The end of a command that is not discarded and has the effect `t` (R272). -/
theorem exec_of_effect {i : Instr} {s t : State} (he : s.err = false) (h : effectOf i s = t) :
    exec i s = .next t.finished := by
  rw [exec_of_noErr i he, h]

/-- The end of a command that fails with `CW` as the detail (R272, R292). -/
theorem exec_of_raise {i : Instr} {s : State} {e : ErrCode} (he : s.err = false) (h : effectOf i s = s.raise e s.cw) :
    exec i s = .next (failedWith s e) := exec_of_effect he h

/-- What `SHA1.HASH` puts into `H` are the words of the digest that it stores (R153). -/
theorem Sha1.digest_digestWords_hash (m : List Byte) : Sha1.digest (Sha1.digestWords (Sha1.hash m)) = Sha1.hash m := by
  rw [Sha1.hash, Sha1.digestWords_digest]

/-- Settles O28: the command has no check, so it always has its effect. -/
theorem sha1InitOpensStream : Obligations.Sha1InitOpensStream :=
  ⟨rfl, fun _ he => exec_of_noErr .sha1Init he⟩

/-- Settles O29: the branches of the effect exclude each other. -/
theorem sha1UpdateAbsorbs : Obligations.Sha1UpdateAbsorbs := by
  refine ⟨rfl, fun s he => ?_⟩
  rcases sha1UpdateEffect_cases s with ⟨hidle, h⟩ | ⟨hopen, hout, h⟩ | ⟨hopen, hin, h⟩
  · exact ⟨fun _ => exec_of_raise he h, fun hopen => absurd hidle hopen, fun hopen => absurd hidle hopen⟩
  · exact ⟨fun hidle => absurd hidle hopen, fun _ _ => exec_of_raise he h, fun _ hin => absurd hout hin.not_gt⟩
  · exact ⟨fun hidle => absurd hidle hopen, fun _ hout => absurd hout hin.not_gt,
      fun _ _ => ⟨_, exec_of_effect he h, rfl⟩⟩

/-- Settles O32: the branches of the effect exclude each other. -/
theorem sha1FinalDelivers : Obligations.Sha1FinalDelivers := by
  refine ⟨rfl, fun s he => ?_⟩
  rcases sha1FinalEffect_cases s with ⟨hother, h⟩ | ⟨hsha, hout, h⟩ | ⟨hsha, hin, h⟩
  · exact ⟨fun _ => exec_of_raise he h, fun hsha => absurd hsha hother, fun hsha => absurd hsha hother⟩
  · exact ⟨fun hother => absurd hsha hother, fun _ _ => exec_of_raise he h, fun _ hin => absurd hout hin.not_gt⟩
  · refine ⟨fun hother => absurd hsha hother, fun _ hout => absurd hout hin.not_gt,
      fun _ _ => ⟨_, exec_of_effect he h, ?_⟩⟩
    generalize Sha1.digest s.sha.finish.h = dg
    exact ⟨rfl, stored_write _ _ _⟩

/-- Settles O33: the branches of the effect exclude each other. -/
theorem sha1BlockCompresses : Obligations.Sha1BlockCompresses := by
  refine ⟨rfl, fun s he => ?_⟩
  rcases sha1BlockEffect_cases s with ⟨hout, h⟩ | ⟨hin, h⟩
  · exact ⟨fun _ => exec_of_raise he h, fun hin => absurd hout hin.not_gt⟩
  · exact ⟨fun hout => absurd hout hin.not_gt, fun _ => ⟨_, exec_of_effect he h, rfl⟩⟩

/-- Settles O34: the branches of the effect exclude each other. -/
theorem sha1HashDelivers : Obligations.Sha1HashDelivers := by
  refine ⟨rfl, fun s he => ?_⟩
  rcases sha1HashEffect_cases s with ⟨hout, h⟩ | ⟨hsrc, hdst, h⟩
  · exact ⟨fun _ => exec_of_raise he h, fun hsrc hdst => by omega⟩
  · refine ⟨fun hout => by omega, fun _ _ => ⟨_, exec_of_effect he h, ?_⟩⟩
    have hdigest := Sha1.digest_digestWords_hash (s.memRead s.src.toNat s.len.toNat)
    generalize Sha1.hash (s.memRead s.src.toNat s.len.toNat) = dg at hdigest ⊢
    exact ⟨rfl, hdigest, stored_write _ _ _⟩

/-! ### A whole stream -/

/-- Settles O38: the open stream holds `m` (R154), so the digest that `SHA1.FINAL` delivers is that of `m`. -/
theorem streamDeliversHashOfWholeMessage : Obligations.StreamDeliversHashOfWholeMessage := by
  intro s s' m hstream hsame _ hdst
  obtain ⟨hst, hholds, _⟩ := hstream.holds
  obtain ⟨_, _, hdelivers⟩ := sha1FinalDelivers.2 s' hsame.noError
  obtain ⟨t, hexec, ht, hstored⟩ := hdelivers (hsame.st.trans hst) hdst
  refine ⟨t, hexec, by rw [ht]; exact hsame.noError, ?_⟩
  rwa [hsame.sha, hholds.digest_finish] at hstored

/-- The end of a stream leaves in the unit what the one-shot hash of the same message leaves there (R151, R153). -/
theorem Sha1Unit.Holds.finish_closed {u : Sha1Unit} {m : List Byte} (hu : u.Holds m) (v : Sha1Unit) :
    u.finish.closed = ⟨Sha1.digestWords (Sha1.hash m), 0, zeroBlock, (v.hash m).work⟩ := by
  rw [← hu.digest_finish, Sha1.digestWords_digest, ← hu.finish_work v]
  rfl

theorem sha1UpdateEffect_of_inside {s : State} (hst : s.st ≠ .idle) (hsrc : s.src.toNat + s.len.toNat ≤ s.memSize) :
    sha1UpdateEffect s = { s.drawn s.len.toNat with sha := s.sha.absorb (s.memRead s.src.toNat s.len.toNat) } := by
  rcases sha1UpdateEffect_cases s with ⟨hidle, _⟩ | ⟨_, hout, _⟩ | ⟨_, _, h⟩
  · exact absurd hidle hst
  · exact absurd hout hsrc.not_gt
  · exact h

theorem sha1HashEffect_of_inside {s : State} (hsrc : s.src.toNat + s.len.toNat ≤ s.memSize)
    (hdst : s.dst.toNat + 20 ≤ s.memSize) :
    sha1HashEffect s = (s.drawn s.len.toNat).deliver (Sha1.hash (s.memRead s.src.toNat s.len.toNat))
      (s.sha.hash (s.memRead s.src.toNat s.len.toNat)).work := by
  rcases sha1HashEffect_cases s with ⟨hout, _⟩ | ⟨_, _, h⟩
  · omega
  · exact h

/-- `SHA1.FINAL` on a stream that holds `m`, with the unit as a one-shot hash of `m` from any unit `v` leaves it. -/
theorem sha1FinalEffect_of_holds {s : State} {m : List Byte} (hst : s.st = .sha) (hu : s.sha.Holds m)
    (hdst : s.dst.toNat + 20 ≤ s.memSize) (v : Sha1Unit) :
    sha1FinalEffect s = { s.memWrite s.dst.toNat (Sha1.hash m) with
      rlen := 20, sha := ⟨Sha1.digestWords (Sha1.hash m), 0, zeroBlock, (v.hash m).work⟩, st := .idle } := by
  rcases sha1FinalEffect_cases s with ⟨hother, _⟩ | ⟨_, hout, _⟩ | ⟨_, _, h⟩
  · exact absurd hst hother
  · exact absurd hout hdst.not_gt
  · rw [h, hu.digest_finish, hu.finish_closed v]

/-- The state after `SHA1.INIT` and one `SHA1.UPDATE` at `s`. -/
def State.hashing (s : State) : State :=
  State.finished { s.drawn s.len.toNat with
    sha := s.sha.opened.absorb (s.memRead s.src.toNat s.len.toNat), kblk := zeroBlock, st := .sha }

theorem exec_sha1Update_after_init {s : State} (he : s.err = false) (hsrc : s.src.toNat + s.len.toNat ≤ s.memSize) :
    exec .sha1Update (sha1InitEffect s).finished = .next s.hashing := by
  have heffect := sha1UpdateEffect_of_inside (s := (sha1InitEffect s).finished) nofun hsrc
  rw [exec_of_effect (i := .sha1Update) (s := (sha1InitEffect s).finished) he heffect]
  rfl

theorem State.holds_hashing (s : State) : s.hashing.sha.Holds (s.memRead s.src.toNat s.len.toNat) :=
  s.sha.holds_opened.absorb _

/-- Settles O39: the stream of one update holds the message, and `SHA1.FINAL` leaves the unit as the one-shot hash does. -/
theorem hashEqualsInitUpdateFinal : Obligations.HashEqualsInitUpdateFinal := by
  intro s he hsrc hdst
  have hfinal := sha1FinalEffect_of_holds (s := s.hashing) rfl s.holds_hashing hdst s.sha
  refine ⟨_, _, _, exec_of_noErr .sha1Init he, exec_sha1Update_after_init he hsrc,
    exec_of_effect (i := .sha1Final) he hfinal, ?_⟩
  rw [exec_of_effect (i := .sha1Hash) he (sha1HashEffect_of_inside hsrc hdst)]
  generalize Sha1.hash (s.memRead s.src.toNat s.len.toNat) = dg
  generalize (s.sha.hash (s.memRead s.src.toNat s.len.toNat)).work = work
  rfl

end Sys2Proof.Machine
end

section
/-! The family of the HMAC wrapper (spec/41_hmac.md): the key block and the nested hash (R181, R182), the three commands (R183 to
R185), and what a whole stream delivers (R186). -/

namespace Sys2Proof.Machine

/-! ### The end of a stream -/

/-- The end of a one-shot command or of a MAC stream (R153, R183, R185). -/
theorem State.finished_deliver (s : State) (dg : List Byte) (work : Work) :
    (s.deliver dg work).finished = { s with
      sha := ⟨Sha1.digestWords dg, 0, zeroBlock, work⟩, kblk := zeroBlock, st := .idle, rlen := 20
      mem := s.mem.write s.dst.toNat dg, busy := false, done := true } := rfl

/-- The outer hash from any unit ends as the one-shot hash of the outer pad and the inner digest from any unit `v` (R182, R185). -/
theorem Sha1Unit.outer_closed (u v : Sha1Unit) (kb inner : List Byte) :
    (u.outer kb inner).closed =
      ⟨Sha1.digestWords (Sha1.hash (Hmac.opad kb ++ inner)), 0, zeroBlock, (v.hash (Hmac.opad kb ++ inner)).work⟩ :=
  (Hmac.outer_holds u kb inner).finish_closed v

theorem Sha1Unit.digest_outer (u : Sha1Unit) (kb inner : List Byte) :
    Sha1.digest (u.outer kb inner).h = Sha1.hash (Hmac.opad kb ++ inner) :=
  (Hmac.outer_holds u kb inner).digest_finish

theorem hmacFinalEffect_of_inside {s : State} (hst : s.st = .hmac) (hdst : s.dst.toNat + 20 ≤ s.memSize) (v : Sha1Unit) :
    hmacFinalEffect s =
      s.deliver (Sha1.hash (Hmac.opad s.kblk.toList ++ Sha1.digest s.sha.finish.h))
        (v.hash (Hmac.opad s.kblk.toList ++ Sha1.digest s.sha.finish.h)).work := by
  rcases hmacFinalEffect_cases s with ⟨hother, _⟩ | ⟨_, hout, _⟩ | ⟨_, _, h⟩
  · exact absurd hst hother
  · exact absurd hout hdst.not_gt
  · rw [h, Sha1Unit.digest_outer, Sha1Unit.outer_closed _ v]
    rfl

/-- `HMAC.FINAL` on a stream with `key` that holds `m` delivers as the one-shot MAC from any unit `v` does (R183, R185). -/
theorem hmacFinalEffect_of_holds {s : State} {key m : List Byte} (hst : s.st = .hmac)
    (hu : s.sha.Holds (Hmac.ipad (Hmac.keyBlock key) ++ m)) (hkey : s.kblk.toList = Hmac.keyBlock key)
    (hdst : s.dst.toNat + 20 ≤ s.memSize) (v : Sha1Unit) :
    hmacFinalEffect s = s.deliver (Hmac.mac key m) (v.hash (Hmac.outerInput key m)).work := by
  rw [hmacFinalEffect_of_inside hst hdst v, hkey, hu.digest_finish, Hmac.mac, Hmac.outerInput]

/-- Settles O45: the open stream holds the inner pad and `m` (R154), so `HMAC.FINAL` delivers the MAC of `m`. -/
theorem hmacStreamDeliversMac : Obligations.HmacStreamDeliversMac := by
  intro s s' key m hstream hsame _ hdst
  obtain ⟨hst, hholds, _, hkey⟩ := hstream.holds
  rw [← hsame.sha] at hholds
  rw [← hsame.kblk] at hkey
  have hexec := exec_of_effect (i := .hmacFinal) hsame.noError
    (hmacFinalEffect_of_holds (hsame.st.trans hst) hholds hkey hdst s'.sha)
  rw [State.finished_deliver] at hexec
  generalize Hmac.mac key m = mac at hexec ⊢
  exact ⟨_, hexec, hsame.noError, stored_write _ _ _⟩

/-! ### The one-shot command and the stream -/

/-- The key that `HMAC.MAC` and `HMAC.INIT` read (R183, R184). -/
def State.macKey (s : State) : List Byte := s.memRead s.keya.toNat s.keyl.toNat

/-- The message that `HMAC.MAC` reads after the key (R183). -/
def State.macMessage (s : State) : List Byte := (s.drawn s.keyl.toNat).memRead s.src.toNat s.len.toNat

theorem hmacInitEffect_of_inside {s : State} (hkey : s.keya.toNat + s.keyl.toNat ≤ s.memSize) :
    hmacInitEffect s = { s.drawn s.keyl.toNat with
      kblk := toBlock (Hmac.keyBlock s.macKey), sha := s.sha.opened.absorb (Hmac.ipad (Hmac.keyBlock s.macKey))
      st := .hmac } := by
  rcases hmacInitEffect_cases s with ⟨hout, _⟩ | ⟨_, h⟩
  · exact absurd hout hkey.not_gt
  · exact h

theorem hmacMacEffect_of_inside {s : State} (hkey : s.keya.toNat + s.keyl.toNat ≤ s.memSize)
    (hsrc : s.src.toNat + s.len.toNat ≤ s.memSize) (hdst : s.dst.toNat + 20 ≤ s.memSize) :
    hmacMacEffect s = ((s.drawn s.keyl.toNat).drawn s.len.toNat).deliver (Hmac.mac s.macKey s.macMessage)
      (s.sha.hash (Hmac.outerInput s.macKey s.macMessage)).work := by
  rcases hmacMacEffect_cases s with ⟨hout, _⟩ | ⟨_, _, _, h⟩
  · omega
  · exact h

/-- The state after `HMAC.INIT` at `s`. -/
def State.macOpened (s : State) : State :=
  State.finished { s.drawn s.keyl.toNat with
    kblk := toBlock (Hmac.keyBlock s.macKey), sha := s.sha.opened.absorb (Hmac.ipad (Hmac.keyBlock s.macKey)), st := .hmac }

/-- The state after `HMAC.INIT` and one `SHA1.UPDATE` at `s`. -/
def State.macUpdated (s : State) : State :=
  State.finished { s.macOpened.drawn s.len.toNat with sha := s.macOpened.sha.absorb s.macMessage }

theorem exec_hmacInit_of_inside {s : State} (he : s.err = false) (hkey : s.keya.toNat + s.keyl.toNat ≤ s.memSize) :
    exec .hmacInit s = .next s.macOpened :=
  exec_of_effect he (hmacInitEffect_of_inside hkey)

theorem exec_sha1Update_macOpened {s : State} (he : s.err = false) (hsrc : s.src.toNat + s.len.toNat ≤ s.memSize) :
    exec .sha1Update s.macOpened = .next s.macUpdated :=
  exec_of_effect (i := .sha1Update) (s := s.macOpened) he (sha1UpdateEffect_of_inside (s := s.macOpened) nofun hsrc)

theorem State.holds_macUpdated (s : State) :
    s.macUpdated.sha.Holds (Hmac.ipad (Hmac.keyBlock s.macKey) ++ s.macMessage) :=
  (s.sha.holds_opened.absorb (Hmac.ipad (Hmac.keyBlock s.macKey))).absorb _

/-- Settles O46: the stream of one update holds the message, and `HMAC.FINAL` delivers as the one-shot MAC does. -/
theorem hmacMacEqualsInitUpdateFinal : Obligations.HmacMacEqualsInitUpdateFinal := by
  intro s he hkey hsrc hdst
  have hfinal := hmacFinalEffect_of_holds (s := s.macUpdated) rfl s.holds_macUpdated
    (toList_toBlock (Hmac.length_keyBlock _)) hdst s.sha
  refine ⟨_, _, _, exec_hmacInit_of_inside he hkey, exec_sha1Update_macOpened he hsrc,
    exec_of_effect (i := .hmacFinal) he hfinal, ?_⟩
  rw [exec_of_effect (i := .hmacMac) he (hmacMacEffect_of_inside hkey hsrc hdst)]
  generalize Hmac.mac s.macKey s.macMessage = mac
  generalize (s.sha.hash (Hmac.outerInput s.macKey s.macMessage)).work = work
  rfl

/-! ### The key block and the pads -/

/-- Settles O40: the comparison with 64 decides which of the two is padded. -/
theorem keyBlockShape : Obligations.KeyBlockShape := by
  refine fun key => ⟨fun hshort => ?_, fun hlong => ?_, Hmac.length_keyBlock key⟩
  · rw [Hmac.keyBlock, Hmac.shortKey, if_neg hshort.not_gt, zeros]
  · rw [Hmac.keyBlock, Hmac.shortKey, if_pos hlong, Sha1.length_hash, zeros]

theorem getD_xorAll (x : Byte) {v : List Byte} {i : Nat} (hi : i < v.length) :
    (xorAll x v).getD i 0 = v.getD i 0 ^^^ x := by
  simp [xorAll, List.getD_eq_getElem?_getD, hi]

/-- Settles O41: the pads are those of the key block. -/
theorem macIsTheNestedHash : Obligations.MacIsTheNestedHash := by
  intro key message
  have hlen := Hmac.length_keyBlock key
  refine ⟨Hmac.ipad (Hmac.keyBlock key), Hmac.opad (Hmac.keyBlock key), by rw [Hmac.length_ipad, hlen],
    by rw [Hmac.length_opad, hlen], fun i hi => ?_, rfl⟩
  rw [← hlen] at hi
  exact ⟨getD_xorAll 0x36 hi, getD_xorAll 0x5c hi⟩

/-! ### The commands, branch by branch

As for the SHA-1 unit, a MAC or a digest is generalized before two states are compared by `rfl`. -/

/-- What `HMAC.MAC` puts into `H` are the words of the MAC that it stores (R183). -/
theorem Hmac.digest_digestWords_mac (key m : List Byte) :
    Sha1.digest (Sha1.digestWords (Hmac.mac key m)) = Hmac.mac key m := Sha1.digest_digestWords_hash _

/-- Settles O42: the branches of the effect exclude each other; `later` is the count of free values after the key is read. -/
theorem hmacMacDelivers : Obligations.HmacMacDelivers := by
  refine ⟨rfl, fun s he => ?_⟩
  rcases hmacMacEffect_cases s with ⟨hout, h⟩ | ⟨hkey, hsrc, hdst, _⟩
  · exact ⟨fun _ => exec_of_raise he h, fun _ _ _ => by omega⟩
  · have hexec := exec_of_effect (i := .hmacMac) he (hmacMacEffect_of_inside hkey hsrc hdst)
    rw [State.finished_deliver] at hexec
    refine ⟨fun hout => by omega, fun _ _ _ =>
      ⟨_, Hmac.mac s.macKey s.macMessage, s.draws + s.keyl.toNat, hexec, rfl, ?_⟩⟩
    have hdigest := Hmac.digest_digestWords_mac s.macKey s.macMessage
    generalize Hmac.mac s.macKey s.macMessage = mac at hdigest ⊢
    exact ⟨rfl, hdigest, stored_write _ _ _⟩

/-- A whole block absorbed first is counted and compressed from `IV` (R154, R184). -/
theorem Sha1Unit.opened_absorb_block (u : Sha1Unit) {blk : List Byte} (hlen : blk.length = 64) :
    (u.opened.absorb blk).mlen = 512 ∧ (u.opened.absorb blk).h = Sha1.compress Sha1.iv blk := by
  have hholds : (u.opened.absorb blk).Holds blk := u.holds_opened.absorb blk
  refine ⟨by rw [hholds.count, hlen]; rfl, ?_⟩
  rw [hholds.chain, hlen, chunks_one, List.take_of_length_le hlen.le]
  rfl

/-- Settles O43: the branches of the effect exclude each other, and the inner pad is one block. -/
theorem hmacInitOpensStream : Obligations.HmacInitOpensStream := by
  refine ⟨rfl, fun s he => ?_⟩
  rcases hmacInitEffect_cases s with ⟨hout, h⟩ | ⟨hin, _⟩
  · exact ⟨fun _ => exec_of_raise he h, fun hin => absurd hout hin.not_gt⟩
  · refine ⟨fun hout => absurd hout hin.not_gt, fun _ => ⟨_, _, exec_hmacInit_of_inside he hin, rfl, rfl,
      toList_toBlock (Hmac.length_keyBlock _), ?_⟩⟩
    exact s.sha.opened_absorb_block ((Hmac.length_ipad _).trans (Hmac.length_keyBlock _))

/-- Settles O44: the branches of the effect exclude each other. -/
theorem hmacFinalDelivers : Obligations.HmacFinalDelivers := by
  refine ⟨rfl, fun s he => ?_⟩
  rcases hmacFinalEffect_cases s with ⟨hother, h⟩ | ⟨hhmac, hout, h⟩ | ⟨hhmac, hin, h⟩
  · exact ⟨fun _ => exec_of_raise he h, fun hhmac => absurd hhmac hother, fun hhmac => absurd hhmac hother⟩
  · exact ⟨fun hother => absurd hhmac hother, fun _ _ => exec_of_raise he h, fun _ hin => absurd hout hin.not_gt⟩
  · refine ⟨fun hother => absurd hhmac hother, fun _ hout => absurd hout hin.not_gt,
      fun _ _ => ⟨_, s.sha.finish.outer s.kblk.toList (Sha1.digest s.sha.finish.h), exec_of_effect he h, rfl, ?_⟩⟩
    generalize s.sha.finish.outer s.kblk.toList (Sha1.digest s.sha.finish.h) = outer
    generalize Sha1.digest outer.h = dg
    exact ⟨rfl, stored_write _ _ _⟩

end Sys2Proof.Machine
end

section
/-! The family of the Base32 unit (spec/42_base32.md): the encoder (R202), the decoder (R203 to R205) and the two commands
(R206, R207). -/

namespace Sys2Proof.Machine

/-! ### The groups of five bits -/

/-- Cutting a list that is long enough gives whole pieces. -/
theorem length_of_mem_chunks {α : Type} {k n : Nat} {l g : List α} (hl : k * n ≤ l.length) (hg : g ∈ chunks k n l) :
    g.length = k := by
  obtain ⟨j, hj⟩ := List.mem_iff_getElem?.1 hg
  have hjn : j < n := by simpa using (List.getElem?_eq_some_iff.1 hj).1
  have hroom : k * (j + 1) ≤ k * n := Nat.mul_le_mul_left k hjn
  rw [Nat.mul_succ] at hroom
  obtain rfl : (l.drop (k * j)).take k = g := Option.some.inj ((getElem?_chunks k n l hjn).symm.trans hj)
  rw [List.length_take, List.length_drop]
  omega

/-- The groups of five bits of the filled bit string (R202). -/
def Base32.groups (x : List Byte) : List (List Bool) := chunks 5 (Base32.dataChars x.length) (Base32.filledBits x)

theorem Base32.length_groups (x : List Byte) : (Base32.groups x).length = Base32.dataChars x.length := length_chunks ..

theorem Base32.flatten_groups (x : List Byte) : (Base32.groups x).flatten = Base32.filledBits x :=
  flatten_chunks _ _ (Base32.length_filledBits x)

theorem Base32.length_of_mem_groups {x : List Byte} {g : List Bool} (hg : g ∈ Base32.groups x) : g.length = 5 :=
  length_of_mem_chunks (Base32.length_filledBits x).ge hg

/-- Five bits index the alphabet (R109). -/
theorem bitsToNat_lt_32 {g : List Bool} (hg : g.length = 5) : bitsToNat g < 32 := by
  have := bitsToNat_lt g
  rwa [hg] at this

/-- The text is the groups' characters and the padding, in the form that `scan_alpha` reads. -/
theorem Base32.enc_eq (x : List Byte) : Base32.enc x = ((Base32.groups x).map bitsToNat).map Base32.alpha ++
    List.replicate (Base32.textLen x.length - Base32.dataChars x.length) 0x3D := by
  rw [List.map_map]
  rfl

/-- The decoder reads from an encoded text the values of the encoder's groups. -/
theorem Base32.scan_enc (x : List Byte) :
    Base32.scan 0 false (Base32.enc x) = .ok ((Base32.groups x).map fun g => BitVec.ofNat 5 (bitsToNat g)) := by
  have hvalues : ∀ v ∈ (Base32.groups x).map bitsToNat, v < 32 := fun v hv => by
    obtain ⟨g, hg, rfl⟩ := List.mem_map.1 hv
    exact bitsToNat_lt_32 (Base32.length_of_mem_groups hg)
  rw [Base32.enc_eq, Base32.scan_alpha _ hvalues, List.map_map]
  rfl

/-- Groups of five bits, turned into values and back, are the bit string again. -/
theorem flatMap_msbBits_bitsToNat {gs : List (List Bool)} (h : ∀ g ∈ gs, g.length = 5) :
    (gs.map fun g => BitVec.ofNat 5 (bitsToNat g)).flatMap (fun v => msbBits v 5) = gs.flatten := by
  induction gs with
  | nil => rfl
  | cons g gs ih =>
    have hg : g.length = 5 := h g List.mem_cons_self
    have hbits := msbBits_bitsToNat 5 g hg.le
    rw [hg] at hbits
    rw [List.map_cons, List.flatMap_cons, hbits, ih fun g' hg' => h g' (List.mem_cons_of_mem _ hg'), List.flatten_cons]

/-- Packing the groups' values drops the filling bits (R111, R204). -/
theorem Base32.pack_groups (x : List Byte) :
    Base32.pack ((Base32.groups x).map fun g => BitVec.ofNat 5 (bitsToNat g)) = x := by
  have hbytes : 5 * Base32.dataChars x.length / 8 = x.length := by unfold Base32.dataChars; omega
  rw [Base32.pack, flatMap_msbBits_bitsToNat fun _ => Base32.length_of_mem_groups, Base32.flatten_groups, List.length_map,
    Base32.length_groups, hbytes]
  exact Base32.chunks_bitString x _

/-- Settles O48: the decoder reads the groups' values back, and packing them gives the bytes. -/
theorem decodeOfEncodeIsIdentity : Obligations.DecodeOfEncodeIsIdentity := by
  intro x
  rw [Base32.dec, Base32.scan_enc]
  exact congrArg Except.ok (Base32.pack_groups x)

/-! ### The characters of an encoded text -/

/-- The two rows of the alphabet as one character code (R109). -/
theorem Base32.alpha_eq (v : Nat) : Base32.alpha v = BitVec.ofNat 8 (if v ≤ 25 then 0x41 + v else 0x32 + (v - 26)) :=
  (apply_ite (BitVec.ofNat 8) _ _ _).symm

theorem Base32.getD_enc_of_lt (x : List Byte) {j : Nat} (hj : j < Base32.dataChars x.length) :
    (Base32.enc x).getD j 0 = Base32.alpha (bitsToNat (((Base32.filledBits x).drop (5 * j)).take 5)) := by
  rw [Base32.enc, List.getD_append _ _ _ _ (by simpa using hj), List.getD_eq_getElem?_getD, List.getElem?_map,
    getElem?_chunks _ _ _ hj]
  rfl

theorem Base32.getD_enc_of_ge (x : List Byte) {j : Nat} (hj : Base32.dataChars x.length ≤ j)
    (hlen : j < Base32.textLen x.length) : (Base32.enc x).getD j 0 = 0x3D := by
  rw [Base32.enc, List.getD_append_right _ _ _ _ (by simpa using hj), List.length_map, length_chunks,
    List.getD_replicate _ (by omega)]

/-- Settles O47: a data character is that of its group, and what follows is padding. -/
theorem encoderFollowsItsRule : Obligations.EncoderFollowsItsRule := by
  refine fun x => ⟨Base32.length_enc x, fun j hlen => ⟨fun hj => ⟨_, rfl, bitsToNat_lt_32 ?fiveBits, ?dataChar⟩,
    fun hj => ?pad⟩⟩
  case fiveBits =>
    have hbits := Base32.length_filledBits x
    rw [Base32.filledBits, Base32.dataChars] at hbits
    rw [List.length_take, List.length_drop, hbits]
    omega
  case dataChar =>
    rw [Base32.getD_enc_of_lt x hj, Base32.alpha_eq]
    rfl
  case pad => exact Base32.getD_enc_of_ge x hj hlen

/-! ### The decoder's answer -/

theorem offends_iff_offendsAfter (t : List Byte) (i : Nat) : Offends t i ↔ Base32.OffendsAfter false t i := by
  simp [Offends, Base32.OffendsAfter]

theorem Offends.lt_length {t : List Byte} {i : Nat} (h : Offends t i) : i < t.length := by
  obtain ⟨_, hi, _⟩ := h
  exact (List.getElem?_eq_some_iff.1 hi).1

/-- All that the decoder can answer (R203). -/
theorem Base32.dec_cases (t : List Byte) :
    (∃ k, Base32.dec t = .error k ∧ Offends t k ∧ ∀ j, j < k → ¬ Offends t j) ∨
    ((∀ j, ¬ Offends t j) ∧ Base32.dec t = .ok (Base32.pack (Base32.values t))) := by
  simp only [offends_iff_offendsAfter, Base32.dec]
  rcases Base32.scanSays t 0 false with ⟨k, hscan, hk, hfirst⟩ | ⟨hnone, hscan⟩
  · rw [Nat.zero_add] at hscan
    exact .inl ⟨k, by rw [hscan], hk, hfirst⟩
  · exact .inr ⟨hnone, by rw [hscan]⟩

theorem Base32.dec_eq_error_iff (t : List Byte) (i : Nat) :
    Base32.dec t = .error i ↔ Offends t i ∧ ∀ j, j < i → ¬ Offends t j := by
  rcases Base32.dec_cases t with ⟨k, hdec, hk, hfirst⟩ | ⟨hnone, hdec⟩ <;> rw [hdec]
  · constructor
    · rintro ⟨⟩
      exact ⟨hk, hfirst⟩
    · rintro ⟨hi, hfirst'⟩
      have hik : ¬ i < k := fun h => hfirst i h hi
      have hki : ¬ k < i := fun h => hfirst' k h hk
      rw [show k = i by omega]
  · exact ⟨nofun, fun ⟨hi, _⟩ => absurd hi (hnone i)⟩

theorem Base32.getD_pack (vs : List (BitVec 5)) {j : Nat} (hj : j < (Base32.pack vs).length) :
    (Base32.pack vs).getD j 0 = BitVec.ofNat 8 (bitsToNat (((vs.flatMap fun v => msbBits v 5).drop (8 * j)).take 8)) := by
  rw [Base32.length_pack] at hj
  rw [Base32.pack, List.getD_eq_getElem?_getD, List.getElem?_map, getElem?_chunks _ _ _ hj]
  rfl

/-- Settles O49: the two answers of the decoder exclude each other. -/
theorem decoderFollowsItsRule : Obligations.DecoderFollowsItsRule := by
  refine fun t => ⟨Base32.dec_eq_error_iff t, fun hnone => ?_⟩
  rcases Base32.dec_cases t with ⟨k, _, hk, _⟩ | ⟨_, hdec⟩
  · exact absurd hk (hnone k)
  · exact ⟨_, Base32.values t, hdec, rfl, Base32.length_pack _, fun _ => Base32.getD_pack _⟩

/-! ### What the decoder does not look at -/

/-- One byte of the text: it is rejected at its index, or it adds its value, if any, in front of what the rest gives. -/
theorem Base32.scan_cons (seen : Bool) (c : Byte) :
    (∀ i t, Base32.scan i seen (c :: t) = .error i) ∨
    ∃ seen' vs, ∀ i t, Base32.scan i seen (c :: t) = (Base32.scan (i + 1) seen' t).map (vs ++ ·) := by
  have hnothing (e : Except Nat (List (BitVec 5))) : e = e.map ([] ++ ·) := (congrFun Except.map_id e).symm
  by_cases hspace : Base32.isSpace c = true
  · exact .inr ⟨seen, [], fun i t => by rw [Base32.scan, if_pos hspace]; exact hnothing _⟩
  by_cases hpad : c = 0x3D
  · exact .inr ⟨true, [], fun i t => by rw [Base32.scan, if_neg hspace, if_pos hpad]; exact hnothing _⟩
  by_cases hseen : seen = true
  · exact .inl fun i t => by rw [Base32.scan, if_neg hspace, if_neg hpad, if_pos hseen]
  cases hvalue : Base32.charValue c with
  | none => exact .inl fun i t => by rw [Base32.scan, if_neg hspace, if_neg hpad, if_neg hseen, hvalue]
  | some v =>
    refine .inr ⟨false, [v], fun i t => ?_⟩
    rw [Base32.scan, if_neg hspace, if_neg hpad, if_neg hseen, hvalue]
    cases Base32.scan (i + 1) false t <;> rfl

/-- The beginning of a text: some byte of it is rejected, or it adds its values in front of what the rest gives. The index
at which the scan begins shifts the reported index and nothing else. -/
theorem Base32.scan_append (seen : Bool) (pre : List Byte) :
    (∃ k, ∀ i t, Base32.scan i seen (pre ++ t) = .error (i + k)) ∨
    ∃ seen' vs, ∀ i t, Base32.scan i seen (pre ++ t) = (Base32.scan (i + pre.length) seen' t).map (vs ++ ·) := by
  induction pre generalizing seen with
  | nil => exact .inr ⟨seen, [], fun i t => (congrFun Except.map_id _).symm⟩
  | cons c pre ih =>
    rcases Base32.scan_cons seen c with hreject | ⟨seen', vs, haccept⟩
    · exact .inl ⟨0, fun i t => hreject i _⟩
    rcases ih seen' with ⟨k, hreject⟩ | ⟨seen'', vs', hrest⟩
    · exact .inl ⟨k + 1, fun i t => by rw [List.cons_append, haccept, hreject, Nat.add_assoc, Nat.add_comm 1]; rfl⟩
    · refine .inr ⟨seen'', vs ++ vs', fun i t => ?_⟩
      rw [List.cons_append, haccept, hrest, List.length_cons, Nat.add_assoc, Nat.add_comm 1]
      cases Base32.scan (i + (pre.length + 1)) seen'' t <;> simp [Except.map]

theorem toOption_map {ε α β : Type} (f : α → β) (e : Except ε α) : (e.map f).toOption = e.toOption.map f := by
  cases e <;> rfl

/-- Two ends of a text that give the same values do so after any beginning, from whatever index. -/
theorem Base32.toOption_scan_append {t t' : List Byte}
    (h : ∀ i j seen, (Base32.scan i seen t).toOption = (Base32.scan j seen t').toOption) (pre : List Byte) (i j : Nat)
    (seen : Bool) : (Base32.scan i seen (pre ++ t)).toOption = (Base32.scan j seen (pre ++ t')).toOption := by
  rcases Base32.scan_append seen pre with ⟨k, hreject⟩ | ⟨seen', vs, haccept⟩
  · rw [hreject, hreject]
    rfl
  · rw [haccept, haccept, toOption_map, toOption_map, h]

/-- The index at which the scan begins does not change the values. -/
theorem Base32.toOption_scan_index (i j : Nat) (seen : Bool) (t : List Byte) :
    (Base32.scan i seen t).toOption = (Base32.scan j seen t).toOption := by
  simpa using Base32.toOption_scan_append (t := []) (t' := []) (fun _ _ _ => rfl) t i j seen

theorem Base32.dec_eq_map (t : List Byte) : Base32.dec t = (Base32.scan 0 false t).map Base32.pack := by
  rw [Base32.dec]
  cases Base32.scan 0 false t <;> rfl

theorem Base32.toOption_dec_append {t t' : List Byte}
    (h : ∀ i j seen, (Base32.scan i seen t).toOption = (Base32.scan j seen t').toOption) (pre : List Byte) :
    (Base32.dec (pre ++ t)).toOption = (Base32.dec (pre ++ t')).toOption := by
  rw [Base32.dec_eq_map, Base32.dec_eq_map, toOption_map, toOption_map, Base32.toOption_scan_append h]

/-- A letter in lower case has the class and the value of the letter in upper case (R110). -/
theorem Base32.lowerCase : ∀ c : Byte, 0x41 ≤ c.toNat → c.toNat ≤ 0x5A →
    Base32.isSpace (c + 0x20) = Base32.isSpace c ∧ c + 0x20 ≠ 0x3D ∧ c ≠ 0x3D ∧
      Base32.charValue (c + 0x20) = Base32.charValue c := by decide

theorem Base32.scan_lowerCase {c : Byte} (hlo : 0x41 ≤ c.toNat) (hhi : c.toNat ≤ 0x5A) (i : Nat) (seen : Bool)
    (t : List Byte) : Base32.scan i seen ((c + 0x20) :: t) = Base32.scan i seen (c :: t) := by
  obtain ⟨hspace, hlower, hupper, hvalue⟩ := Base32.lowerCase c hlo hhi
  rw [Base32.scan, Base32.scan, hspace, if_neg hlower, if_neg hupper, hvalue]

theorem Base32.dec_append_congr {t t' : List Byte} (h : ∀ i seen, Base32.scan i seen t = Base32.scan i seen t')
    (pre : List Byte) : Base32.dec (pre ++ t) = Base32.dec (pre ++ t') := by
  rw [Base32.dec_eq_map, Base32.dec_eq_map]
  rcases Base32.scan_append false pre with ⟨k, hreject⟩ | ⟨seen', vs, haccept⟩
  · rw [hreject, hreject]
  · rw [haccept, haccept, h]

/-- Settles O50: each change is one of the end of a text that the scan does not see. -/
theorem decoderIgnoresWhitespaceAndCase : Obligations.DecoderIgnoresWhitespaceAndCase := by
  refine ⟨fun pre post w hw => ?whitespace, fun pre post c hlo hhi => ?letterCase, fun t => ?trailingPad⟩
  case whitespace =>
    refine Base32.toOption_dec_append (fun i j seen => ?_) pre
    rw [Base32.scan, if_pos hw]
    exact Base32.toOption_scan_index _ _ _ _
  case letterCase => exact Base32.dec_append_congr (fun i seen => Base32.scan_lowerCase hlo hhi i seen post) pre
  case trailingPad =>
    have hpad := Base32.toOption_dec_append (t := [0x3D]) (t' := [])
      (fun i _ seen => congrArg Except.toOption (Base32.scan_padding i 1 seen)) t
    rwa [List.append_nil] at hpad

/-! ### The commands, branch by branch -/

/-- A count or an index within the scratchpad fits a register (R70). -/
theorem toNat_ofNat_of_le_memSize (s : State) {n : Nat} (h : n ≤ s.memSize) : (BitVec.ofNat 32 n).toNat = n := by
  have hsize : s.memSize ≤ 65536 := s.cfg.memSize_le
  rw [BitVec.toNat_ofNat]
  omega

/-- Settles O51: the branches of the effect exclude each other. -/
theorem b32EncWritesText : Obligations.B32EncWritesText := by
  refine ⟨rfl, fun s n he hn => ?_⟩
  change n = Base32.textLen s.len.toNat at hn
  subst hn
  rcases b32EncEffect_cases s with ⟨hout, h⟩ | ⟨hsrc, hdst, hover, h⟩ | ⟨hsrc, hdst, hover, h⟩
  · exact ⟨fun _ => exec_of_raise he h, fun _ _ _ => by omega, fun _ _ _ => by omega⟩
  · exact ⟨fun hout => by omega, fun _ _ _ => exec_of_raise he h,
      fun _ _ hapart => (nomatch hover.symm.trans hapart)⟩
  · exact ⟨fun hout => by omega, fun _ _ hover' => (nomatch hover.symm.trans hover'),
      fun _ _ _ => ⟨_, exec_of_effect he h, rfl, toNat_ofNat_of_le_memSize s (by omega), stored_write _ _ _⟩⟩

/-- Settles O52: the branches of the effect exclude each other, and the decoder's answer decides the last (R203). -/
theorem b32DecWritesBytes : Obligations.B32DecWritesBytes := by
  refine ⟨rfl, fun s cap he hcap => ?_⟩
  change cap = Base32.capacity s.len.toNat at hcap
  subst hcap
  rcases b32DecEffect_cases s with ⟨hout, h⟩ | ⟨hsrc, hdst, hover, h⟩ | ⟨hsrc, hdst, hover, hscan⟩
  · exact ⟨fun _ => exec_of_raise he h, fun _ _ => by omega⟩
  · exact ⟨fun hout => by omega, fun _ _ => ⟨fun _ => exec_of_raise he h,
      fun hapart => (nomatch hover.symm.trans hapart)⟩⟩
  · refine ⟨fun hout => by omega, fun _ _ => ⟨fun hover' => (nomatch hover.symm.trans hover'), fun _ => ?_⟩⟩
    rcases hscan with ⟨k, hdec, h⟩ | ⟨z, hdec, h⟩
    · refine ⟨fun i hi => ?_, fun y hy => (nomatch hdec.symm.trans hy)⟩
      obtain rfl : k = i := Except.error.inj (hdec.symm.trans hi)
      obtain ⟨hk, _⟩ := (Base32.dec_eq_error_iff _ k).1 hdec
      have hlt : k < s.len.toNat := by simpa using hk.lt_length
      exact ⟨hlt, _, exec_of_effect he h, rfl, toNat_ofNat_of_le_memSize s (by omega)⟩
    · refine ⟨fun i hi => (nomatch hdec.symm.trans hi), fun y hy => ?_⟩
      obtain rfl : z = y := Except.ok.inj (hdec.symm.trans hy)
      have hlen : z.length ≤ Base32.capacity s.len.toNat := by
        simpa [Base32.capacity] using Base32.length_dec_le hdec
      exact ⟨hlen, _, exec_of_effect he h, rfl, toNat_ofNat_of_le_memSize s (by omega), stored_write _ _ _⟩

end Sys2Proof.Machine
end

section
/-! The family of the TOTP unit (spec/43_totp.md): the six commands (R235 to R240), the host sequence of `generate` (R250) and
the drift window of `verify` (R251, R252). -/

namespace Sys2Proof.Machine

/-! ### What is stored where -/

/-- The byte string `v` stands at address `a`. -/
def Memory.Holds (m : Memory) (a : Nat) (v : List Byte) : Prop := ∀ i, i < v.length → m.get? (a + i) = v[i]?

theorem Stored.holds {m m' : Memory} {a : Nat} {v : List Byte} (h : Stored m a v m') : m'.Holds a v := by
  intro i hi
  rw [h (a + i), if_pos (by omega), Nat.add_sub_cancel_left]

theorem Stored.get?_outside {m m' : Memory} {a x : Nat} {v : List Byte} (h : Stored m a v m')
    (hx : x < a ∨ a + v.length ≤ x) : m'.get? x = m.get? x := by
  rw [h x, if_neg (by omega)]

/-- Ranges that share no byte lie on either side of each other, or one of them is empty (R83). -/
theorem overlap_eq_false_iff (a n b m : Nat) :
    overlap a n b m = false ↔ n = 0 ∨ m = 0 ∨ b + m ≤ a ∨ a + n ≤ b := by
  rw [← Bool.not_eq_true, overlap]
  simp only [Bool.and_eq_true, decide_eq_true_eq]
  omega

/-- A part of a range is apart from whatever the range is apart from. -/
theorem overlap_eq_false_of_le {a n b m k : Nat} (h : overlap a n b m = false) (hk : k ≤ m) : overlap a n b k = false := by
  rw [overlap_eq_false_iff] at h ⊢
  omega

/-- A write leaves the bytes of any range that it does not touch. -/
theorem Memory.Holds.of_stored {m m' : Memory} {a b : Nat} {v w : List Byte} (hw : m.Holds b w) (h : Stored m a v m')
    (happart : overlap a v.length b w.length = false) : m'.Holds b w := by
  rw [overlap_eq_false_iff] at happart
  intro i hi
  rw [h.get?_outside (by omega), hw i hi]

/-! ### The commands, branch by branch -/

/-- Settles O53: the command has no check. -/
theorem totpCtrDerivesCounter : Obligations.TotpCtrDerivesCounter :=
  ⟨rfl, fun s he => ⟨_, exec_of_noErr .totpCtr he, rfl, Totp.toNat_counter s.now s.offs⟩⟩

/-- Settles O56: the command has no check. -/
theorem totpModReduces : Obligations.TotpModReduces :=
  ⟨rfl, fun s he => ⟨_, exec_of_noErr .totpMod he, rfl, Totp.toNat_codeOf s.value⟩⟩

theorem getElem?_be64 (v : DWord) {j : Nat} (hj : j < 8) :
    (be64 v)[j]? = some (BitVec.ofNat 8 (v.toNat / 2 ^ (56 - 8 * j))) := by
  have hlt : j < (be64 v).length := hj
  have hbyte := getD_be64 v hj
  rw [List.getD_eq_getElem _ _ hlt, show 8 * (7 - j) = 56 - 8 * j by omega] at hbyte
  rw [List.getElem?_eq_getElem hlt, hbyte]

/-- Settles O54: the branches of the effect exclude each other. -/
theorem totpSerSerialises : Obligations.TotpSerSerialises := by
  refine ⟨rfl, fun s he => ?_⟩
  rcases totpSerEffect_cases s with ⟨hout, h⟩ | ⟨hin, h⟩
  · exact ⟨fun _ => exec_of_raise he h, fun hin => absurd hout hin.not_gt⟩
  · have hstored := stored_write s.mem s.dst.toNat (be64 s.cnt)
    exact ⟨fun hout => absurd hout hin.not_gt, fun _ => ⟨_, exec_of_effect he h, rfl,
      fun j hj => (hstored.holds j hj).trans (getElem?_be64 s.cnt hj), fun _ => hstored.get?_outside⟩⟩

/-- The offset is the low four bits of the last byte (R232). -/
theorem Totp.window_eq (d : List Byte) : Totp.window d = (d.getD 19 0).toNat % 16 := by
  rw [Totp.window, BitVec.toNat_and]
  exact Nat.and_two_pow_sub_one_eq_mod _ 4

/-- Settles O55: the branches of the effect exclude each other. -/
theorem totpTruncTakesWindow : Obligations.TotpTruncTakesWindow := by
  refine ⟨rfl, fun s d o he hd ho => ?_⟩
  rw [← Totp.window_eq d] at ho
  subst hd ho
  rcases totpTruncEffect_cases s with ⟨hout, h⟩ | ⟨hin, h⟩
  · exact ⟨fun _ => exec_of_raise he h, fun hin => absurd hout hin.not_gt⟩
  · exact ⟨fun hout => absurd hout hin.not_gt,
      fun _ => ⟨_, exec_of_effect he h, rfl, Totp.toNat_trunc (s.memRead s.src.toNat 20)⟩⟩

theorem Totp.getElem?_text (c : BitVec 20) {j : Nat} (hj : j < 6) :
    (Totp.text c)[j]? = some (BitVec.ofNat 8 (0x30 + Totp.digit c (5 - j))) := by
  match j, hj with
  | 0, _ | 1, _ | 2, _ | 3, _ | 4, _ | 5, _ => rfl

/-- Settles O57: the branches of the effect exclude each other. -/
theorem totpDigExtracts : Obligations.TotpDigExtracts := by
  refine ⟨rfl, fun s he => ?_⟩
  rcases totpDigEffect_cases s with ⟨hout, h⟩ | ⟨hin, h⟩
  · exact ⟨fun _ => exec_of_raise he h, fun hin => absurd hout hin.not_gt⟩
  · have hstored := stored_write s.mem s.dst.toNat (Totp.text s.code)
    exact ⟨fun hout => absurd hout hin.not_gt, fun _ => ⟨_, exec_of_effect he h, rfl,
      fun _ => Totp.bcdDigit_bcdOf s.code, fun j hj => (hstored.holds j hj).trans (Totp.getElem?_text s.code hj),
      fun _ => hstored.get?_outside⟩⟩

/-- `valid` of R240, byte by byte. -/
theorem Totp.allDigits_iff (c : List Byte) :
    Totp.allDigits c = true ↔ ∀ j, j < c.length → 0x30 ≤ (c.getD j 0).toNat ∧ (c.getD j 0).toNat ≤ 0x39 := by
  simp only [Totp.allDigits, List.all_eq_true, Bool.and_eq_true, decide_eq_true_eq, List.forall_mem_iff_forall_getElem]
  exact forall₂_congr fun j hj => by rw [List.getD_eq_getElem _ _ hj]

/-- `equal` of R240, byte by byte. -/
theorem Totp.sameDigits_iff (bcd : BitVec 24) (c : List Byte) :
    Totp.sameDigits bcd c = true ↔ ∀ j, j < 6 → (c.getD j 0).toNat = 0x30 + bcdDigit bcd (5 - j) := by
  simp only [Totp.sameDigits, List.all_eq_true, List.mem_range, beq_iff_eq]

/-- `MATCH` of R240 for a candidate of six bytes. -/
theorem Totp.match_iff (bcd : BitVec 24) {c : List Byte} (hc : c.length = 6) :
    (Totp.allDigits c && Totp.sameDigits bcd c) = true ↔ ∀ j, j < 6 →
      0x30 ≤ (c.getD j 0).toNat ∧ (c.getD j 0).toNat ≤ 0x39 ∧ (c.getD j 0).toNat = 0x30 + bcdDigit bcd (5 - j) := by
  rw [Bool.and_eq_true, Totp.allDigits_iff, Totp.sameDigits_iff, hc, ← forall₂_and]
  simp only [and_assoc]

/-- Settles O58: the branches of the effect exclude each other. -/
theorem totpCmpCompares : Obligations.TotpCmpCompares := by
  refine ⟨rfl, fun s he => ?_⟩
  rcases totpCmpEffect_cases s with ⟨hother, h⟩ | ⟨hsix, hout, h⟩ | ⟨hsix, hin, h⟩
  · exact ⟨fun _ => exec_of_effect (i := .totpCmp) he h, fun hsix => absurd hsix hother, fun hsix => absurd hsix hother⟩
  · exact ⟨fun hother => absurd hsix hother, fun _ _ => exec_of_raise he h, fun _ hin => absurd hout hin.not_gt⟩
  · exact ⟨fun hother => absurd hsix hother, fun _ hout => absurd hout hin.not_gt,
      fun _ _ => ⟨_, _, exec_of_effect he h, rfl, rfl, Totp.match_iff s.bcd (s.length_memRead _ 6)⟩⟩

/-! ### The code of a counter -/

/-- The code that a key gives for a counter (R231 to R233). -/
def Totp.codeAt (key : List Byte) (counter : DWord) : BitVec 20 := Totp.codeOf (Totp.trunc (Hmac.mac key (be64 counter)))

/-- What a successful `generate` has decoded and answers (R230). -/
theorem Totp.generate_eq_ok {secret code : List Byte} {offs : Word} {now : DWord}
    (h : Totp.generate secret offs now = .ok code) :
    ∃ key, Base32.dec secret = .ok key ∧ code = Totp.text (Totp.codeAt key (Totp.counter now offs)) := by
  unfold Totp.generate at h
  split at h
  next => nomatch h
  next key hdec => exact ⟨key, hdec, (Except.ok.inj h).symm⟩

/-! ### The host sequence of `generate` -/

/-- Command `i` at `s` completes without error in `t`; the scratchpad has the size it had. -/
structure Completes (i : Instr) (s t : State) : Prop where
  exec : exec i s = .next t
  noErr : t.err = false
  size : t.memSize = s.memSize

theorem completes_of_effect {i : Instr} {s u : State} (he : s.err = false) (h : effectOf i s = u) (hu : u.err = false) :
    Completes i s u.finished := by
  refine ⟨exec_of_effect he h, hu, ?_⟩
  obtain ⟨_, _, hcfg, _⟩ := effect_keeps i s
  rw [← h]
  exact congrArg Config.memSize hcfg

/-- `B32.DEC` of a text that decodes leaves its bytes at `DST` and their number in `RLEN` (R207). -/
theorem b32Dec_completes {s : State} {text y : List Byte} (he : s.err = false) (htext : s.mem.Holds s.src.toNat text)
    (hlen : s.len.toNat = text.length) (hsrc : s.src.toNat + text.length ≤ s.memSize)
    (hdst : s.dst.toNat + Base32.capacity text.length ≤ s.memSize)
    (happart : overlap s.src.toNat text.length s.dst.toNat (Base32.capacity text.length) = false)
    (hdec : Base32.dec text = .ok y) :
    ∃ t, Completes .b32Dec s t ∧ t.rlen.toNat = y.length ∧ t.mem.Holds s.dst.toNat y := by
  have hread : s.memRead s.src.toNat s.len.toNat = text := hlen ▸ State.memRead_of_written htext
  have hy : y.length ≤ Base32.capacity text.length := Base32.length_dec_le hdec
  rcases b32DecEffect_cases s with ⟨hout, _⟩ | ⟨_, _, hover, _⟩ | ⟨_, _, _, hscan⟩
  · rw [hlen] at hout
    omega
  · rw [hlen, happart] at hover
    nomatch hover
  · rw [hread, hdec] at hscan
    rcases hscan with ⟨_, herror, _⟩ | ⟨z, hz, h⟩
    · nomatch herror
    · obtain rfl : y = z := Except.ok.inj hz
      exact ⟨_, completes_of_effect (i := .b32Dec) he h he, toNat_ofNat_of_le_memSize s (by omega), (stored_write _ _ _).holds⟩

/-- `TOTP.CTR` always completes (R235). -/
theorem totpCtr_completes {s : State} (he : s.err = false) :
    ∃ t, Completes .totpCtr s t ∧ t.mem = s.mem ∧ t.cnt = Totp.counter s.now s.offs :=
  ⟨_, completes_of_effect he rfl he, rfl, rfl⟩

/-- `TOTP.SER` inside the scratchpad (R236). -/
theorem totpSer_completes {s : State} (he : s.err = false) (hdst : s.dst.toNat + 8 ≤ s.memSize) :
    ∃ t, Completes .totpSer s t ∧ Stored s.mem s.dst.toNat (be64 s.cnt) t.mem := by
  rcases totpSerEffect_cases s with ⟨hout, _⟩ | ⟨_, h⟩
  · exact absurd hout hdst.not_gt
  · exact ⟨_, completes_of_effect (i := .totpSer) he h he, stored_write _ _ _⟩

/-- `HMAC.MAC` of a key and a message that have been written (R183). -/
theorem hmacMac_completes {s : State} {key m : List Byte} (he : s.err = false) (hkey : s.mem.Holds s.keya.toNat key)
    (hkeyl : s.keyl.toNat = key.length) (hm : s.mem.Holds s.src.toNat m) (hlen : s.len.toNat = m.length)
    (hkeyIn : s.keya.toNat + key.length ≤ s.memSize) (hsrc : s.src.toNat + m.length ≤ s.memSize)
    (hdst : s.dst.toNat + 20 ≤ s.memSize) :
    ∃ t, Completes .hmacMac s t ∧ Stored s.mem s.dst.toNat (Hmac.mac key m) t.mem := by
  have hmacKey : s.macKey = key := by
    rw [State.macKey, hkeyl]
    exact State.memRead_of_written hkey
  have hmacMessage : s.macMessage = m := by
    rw [State.macMessage, hlen]
    exact State.memRead_of_written (s := s.drawn s.keyl.toNat) hm
  rw [← hkeyl] at hkeyIn
  rw [← hlen] at hsrc
  have h := hmacMacEffect_of_inside hkeyIn hsrc hdst
  rw [hmacKey, hmacMessage] at h
  generalize Hmac.mac key m = mac at h ⊢
  exact ⟨_, completes_of_effect (i := .hmacMac) he h he, stored_write _ _ _⟩

/-- `TOTP.TRUNC` of a digest that has been written (R237). -/
theorem totpTrunc_completes {s : State} {d : List Byte} (he : s.err = false) (hd : s.mem.Holds s.src.toNat d)
    (hlen : d.length = 20) (hsrc : s.src.toNat + 20 ≤ s.memSize) :
    ∃ t, Completes .totpTrunc s t ∧ t.value = Totp.trunc d := by
  have hread : s.memRead s.src.toNat 20 = d := hlen ▸ State.memRead_of_written hd
  rcases totpTruncEffect_cases s with ⟨hout, _⟩ | ⟨_, h⟩
  · exact absurd hout hsrc.not_gt
  · rw [hread] at h
    exact ⟨_, completes_of_effect (i := .totpTrunc) he h he, rfl⟩

/-- `TOTP.MOD` always completes (R238). -/
theorem totpMod_completes {s : State} (he : s.err = false) :
    ∃ t, Completes .totpMod s t ∧ t.code = Totp.codeOf s.value :=
  ⟨_, completes_of_effect he rfl he, rfl⟩

/-- `TOTP.DIG` inside the scratchpad (R239). -/
theorem totpDig_completes {s : State} (he : s.err = false) (hdst : s.dst.toNat + 6 ≤ s.memSize) :
    ∃ t, Completes .totpDig s t ∧ Stored s.mem s.dst.toNat (Totp.text s.code) t.mem := by
  rcases totpDigEffect_cases s with ⟨hout, _⟩ | ⟨_, h⟩
  · exact absurd hout hdst.not_gt
  · exact ⟨_, completes_of_effect (i := .totpDig) he h he, stored_write _ _ _⟩

/-- Settles O59: the decoded key survives the serialised counter, so `HMAC.MAC` reads both, and each later command reads what
the one before it left. -/
theorem generateSequenceDeliversTheCode : Obligations.GenerateSequenceDeliversTheCode := by
  intro s l secret code offs now he htext htxtIn hkeyIn hctrIn hdigIn hcodeIn htxtKey hctrKey _ _ hgen
  obtain ⟨key, hdec, rfl⟩ := Totp.generate_eq_ok hgen
  have hkeyLen : key.length ≤ 5 * secret.length / 8 := Base32.length_dec_le hdec
  obtain ⟨s0, hs0, hrlen, hkey0⟩ := b32Dec_completes
    (s := { s with src := l.txt, len := BitVec.ofNat 32 secret.length, dst := l.key }) he htext
    (toNat_ofNat_of_le_memSize s (by omega)) htxtIn hkeyIn htxtKey hdec
  obtain ⟨s1, hs1, hmem1, hcnt1⟩ := totpCtr_completes (s := { s0 with now := now, offs := offs }) hs0.noErr
  have hsize1 : s1.memSize = s.memSize := hs1.size.trans hs0.size
  obtain ⟨s2, hs2, hctr2⟩ := totpSer_completes (s := { s1 with dst := l.ctr }) hs1.noErr (hctrIn.trans_eq hsize1.symm)
  have hkey1 : s1.mem.Holds l.key.toNat key := hmem1 ▸ hkey0
  have hkey2 : s2.mem.Holds l.key.toNat key := hkey1.of_stored hctr2 (overlap_eq_false_of_le hctrKey hkeyLen)
  have hsize2 : s2.memSize = s.memSize := hs2.size.trans hsize1
  obtain ⟨s3, hs3, hdig3⟩ := hmacMac_completes
    (s := { s2 with keya := l.key, keyl := s0.rlen, src := l.ctr, len := 8, dst := l.dig }) hs2.noErr hkey2 hrlen
    hctr2.holds rfl ((Nat.add_le_add_left hkeyLen _).trans (hkeyIn.trans_eq hsize2.symm)) (hctrIn.trans_eq hsize2.symm)
    (hdigIn.trans_eq hsize2.symm)
  have hsize3 : s3.memSize = s.memSize := hs3.size.trans hsize2
  obtain ⟨s4, hs4, hvalue4⟩ := totpTrunc_completes (s := { s3 with src := l.dig }) hs3.noErr hdig3.holds
    (Sha1.length_hash _) (hdigIn.trans_eq hsize3.symm)
  obtain ⟨s5, hs5, hcode5⟩ := totpMod_completes hs4.noErr
  have hsize5 : s5.memSize = s.memSize := hs5.size.trans (hs4.size.trans hsize3)
  obtain ⟨s6, hs6, htext6⟩ := totpDig_completes (s := { s5 with dst := l.code }) hs5.noErr (hcodeIn.trans_eq hsize5.symm)
  have hcode : s5.code = Totp.codeAt key (Totp.counter now offs) := by rw [hcode5, hvalue4, hcnt1, Totp.codeAt]
  refine ⟨s0, s1, s2, s3, s4, s5, s6, hs0.exec, hs1.exec, hs2.exec, hs3.exec, hs4.exec, hs5.exec, hs6.exec, hs6.noErr,
    fun j hj => ?_⟩
  rw [← hcode]
  exact htext6.holds j hj

/-! ### The drift window of `verify` -/

/-- A code's characters are digits, and those of its `BCD` (R239, R240). -/
theorem Totp.text_matches (c : BitVec 20) :
    (Totp.allDigits (Totp.text c) && Totp.sameDigits (Totp.bcdOf c) (Totp.text c)) = true := by
  rw [Totp.match_iff _ (Totp.length_text c)]
  intro j hj
  have hdigit := Totp.digit_lt c (5 - j)
  rw [List.getD_eq_getElem?_getD, Totp.getElem?_text c hj, Option.getD_some, Totp.bcdDigit_bcdOf c (by omega),
    BitVec.toNat_ofNat]
  omega

/-- `verify` accepts the code of a counter that some offset of the window reaches (R251). -/
theorem Totp.verify_text {secret key : List Byte} {window off : Int} {now counter : DWord}
    (hdec : Base32.dec secret = .ok key) (hoff : off ∈ Totp.offsets window)
    (hcounter : Totp.counter now (BitVec.ofInt 32 off) = counter) :
    Totp.verify secret (Totp.text (Totp.codeAt key counter)) window now = .ok true := by
  rw [Totp.verify, hdec]
  refine congrArg Except.ok (List.any_eq_true.2 ⟨off, hoff, ?_⟩)
  rw [hcounter, Totp.length_text, Bool.and_assoc]
  exact Totp.text_matches (Totp.codeAt key counter)

/-- A candidate of another length, or a window without an offset, is a non-match (R251, R252 (d)). -/
theorem Totp.verify_eq_false {secret key candidate : List Byte} {window : Int} {now : DWord}
    (hdec : Base32.dec secret = .ok key) (h : candidate.length ≠ 6 ∨ window < 0) :
    Totp.verify secret candidate window now = .ok false := by
  rw [Totp.verify, hdec]
  refine congrArg Except.ok (List.any_eq_false.2 fun off hoff => ?_)
  rcases h with hlen | hneg
  · simp [hlen]
  · simp [Totp.offsets, hneg] at hoff

theorem Totp.zero_mem_offsets {window : Int} (h : 0 ≤ window) : (0 : Int) ∈ Totp.offsets window := by
  rw [Totp.offsets, if_neg h.not_gt]
  exact List.mem_cons_self

/-- The counter where the sum of R231 is not negative: no time and offset make it as large as 2^64. -/
theorem Totp.toNat_counter_of_nonneg {now : DWord} {offs : Word} (h : 0 ≤ ((now.toNat / 30 : Nat) : Int) + offs.toInt) :
    ((Totp.counter now offs).toNat : Int) = (now.toNat / 30 : Nat) + offs.toInt := by
  have hnow := now.isLt
  have hoffs : offs.toInt < 2 ^ 31 := offs.toInt_lt
  rw [Totp.toNat_counter]
  omega

/-- An offset at another time reaches the counter of offset 0 exactly if the sum of R231 is that counter's time step. -/
theorem Totp.counter_eq_iff {now now' : DWord} {offs : Word} (h : 0 ≤ ((now'.toNat / 30 : Nat) : Int) + offs.toInt) :
    Totp.counter now' offs = Totp.counter now 0 ↔ ((now'.toNat / 30 : Nat) : Int) + offs.toInt = (now.toNat / 30 : Nat) := by
  have hzero : (0 : Word).toInt = 0 := rfl
  have hstep := Totp.toNat_counter_of_nonneg (now := now) (offs := 0) (by omega)
  rw [← BitVec.toNat_inj, ← Int.natCast_inj, Totp.toNat_counter_of_nonneg h, hstep, hzero, Int.add_zero]

/-- `OFFS` holds each offset of a window of 1 (R251). -/
theorem Totp.offset_of_mem_one {off : Int} (h : off ∈ Totp.offsets 1) :
    -1 ≤ off ∧ (BitVec.ofInt 32 off).toInt = off := by
  have hall : ∀ o ∈ Totp.offsets 1, -1 ≤ o ∧ (BitVec.ofInt 32 o).toInt = o := by decide
  exact hall off h

theorem Totp.eq_zero_of_mem_zero {off : Int} (h : off ∈ Totp.offsets 0) : off = 0 := List.mem_singleton.1 h

/-- A later time on the clock that does not wrap. -/
theorem toNat_later {now : DWord} {d : Nat} (h : now.toNat + d < 2 ^ 64) :
    (now + BitVec.ofNat 64 d).toNat = now.toNat + d := by
  rw [BitVec.toNat_add, BitVec.toNat_ofNat]
  omega

/-- Up to 30 seconds later the time step is the same or the next one, so a window of 1 reaches the old counter (R252 (b)). -/
theorem Totp.counter_of_later {now : DWord} {d : Nat} (hd : d ≤ 30) (h : now.toNat + d < 2 ^ 64) :
    ∃ off ∈ Totp.offsets 1, Totp.counter (now + BitVec.ofNat 64 d) (BitVec.ofInt 32 off) = Totp.counter now 0 := by
  have hlater := toNat_later h
  by_cases hsame : (now.toNat + d) / 30 = now.toNat / 30
  · have hoffs : (BitVec.ofInt 32 0).toInt = 0 := rfl
    exact ⟨0, by decide, (Totp.counter_eq_iff (by omega)).2 (by omega)⟩
  · have hoffs : (BitVec.ofInt 32 (-1)).toInt = -1 := rfl
    exact ⟨-1, by decide, (Totp.counter_eq_iff (by omega)).2 (by omega)⟩

/-- 61 seconds later the time step is at least two further, out of reach of a window of 1 (R252 (b)). -/
theorem Totp.counter_ne_of_61_later {now : DWord} (h : now.toNat + 61 < 2 ^ 64) {off : Int} (hoff : off ∈ Totp.offsets 1) :
    Totp.counter (now + 61) (BitVec.ofInt 32 off) ≠ Totp.counter now 0 := by
  have hlater : (now + 61).toNat = now.toNat + 61 := toNat_later h
  obtain ⟨hlow, hoffs⟩ := Totp.offset_of_mem_one hoff
  rw [Ne, Totp.counter_eq_iff] <;> omega

/-- 30 seconds later the time step is the next one (R252 (c)). -/
theorem Totp.counter_ne_of_30_later {now : DWord} (h : now.toNat + 30 < 2 ^ 64) :
    Totp.counter (now + 30) 0 ≠ Totp.counter now 0 := by
  have hlater : (now + 30).toNat = now.toNat + 30 := toNat_later h
  have hoffs : (0 : Word).toInt = 0 := rfl
  rw [Ne, Totp.counter_eq_iff] <;> omega

/-- Settles O60: an offset of the window brings the counter back to the code's, or none does. -/
theorem verifyFollowsTheDriftWindow : Obligations.VerifyFollowsTheDriftWindow := by
  intro secret code now _ hgen
  obtain ⟨key, hdec, rfl⟩ := Totp.generate_eq_ok hgen
  refine ⟨fun window hwindow _ _ => ?fresh, fun d hd h _ => ?later, fun h off hoff => Totp.counter_ne_of_61_later h hoff,
    fun h off hoff => ?nextStep, fun candidate window => Totp.verify_eq_false hdec⟩
  case fresh => exact Totp.verify_text hdec (Totp.zero_mem_offsets hwindow) rfl
  case later =>
    obtain ⟨off, hoff, hcounter⟩ := Totp.counter_of_later hd h
    exact Totp.verify_text hdec hoff hcounter
  case nextStep =>
    rw [Totp.eq_zero_of_mem_zero hoff]
    exact Totp.counter_ne_of_30_later h

end Sys2Proof.Machine
end

section
/-! The family of the system (spec/44_system.md): the sequencer's step and the accepted word (R270 to R272), the discard (R273),
polling (R274), what no command writes (R275), `NOP` and `SYS.ZERO` (R276, R277). -/

namespace Sys2Proof.Machine

/-! ### The accepted word and the sequencer's step -/

/-- The effect of an accepted word: that of its command, or the failure of an illegal word (R272, R293). -/
def wordEffect (w : Word) : State → State :=
  match decode w with
  | .ok i => effectOf i
  | .error _ => illegalEffect

theorem wordEffect_of_decode {w : Word} {i : Instr} (h : decode w = .ok i) : wordEffect w = effectOf i := by
  rw [wordEffect, h]

theorem wordEffect_of_illegal {w : Word} {e : Reject} (h : decode w = .error e) : wordEffect w = illegalEffect := by
  rw [wordEffect, h]

/-- The sequencer's step of any word is the complete step of the word's effect. -/
theorem seqStep_eq (s : State) : seqStep s = .next (s.complete (wordEffect s.cw)) := by
  unfold seqStep
  split
  next i hd => rw [wordEffect_of_decode hd, exec_eq]
  next e hd => rw [wordEffect_of_illegal hd, completeIllegal]

theorem seqStep_of_err {s : State} (he : s.err = true) : seqStep s = .next s.finished := by
  rw [seqStep_eq, State.complete_of_err _ he]

theorem seqStep_of_decode {s : State} {i : Instr} (h : decode s.cw = .ok i) : seqStep s = exec i s := by
  rw [seqStep_eq, wordEffect_of_decode h, exec_eq]

/-- Settles O3: on the sequencer's turn the step is the sequencer's, which runs the decoded command. -/
theorem stepRunsDecodedCommand : Obligations.StepRunsDecodedCommand := by
  intro s rest i hturn hd
  exact (step_seqTurn hturn).trans (seqStep_of_decode (s := s.tookEvent rest) hd)

theorem decode_of_decodeTableWord {nbits w : Nat} {i : Instr} (h : decodeTableWord nbits w = some i) :
    decode (BitVec.ofNat 32 (tableWord nbits w)) = .ok i := by
  unfold decodeTableWord at h
  split at h
  · cases hd : decode (BitVec.ofNat 32 (tableWord nbits w)) with
    | ok j => rw [hd] at h; cases h; rfl
    | error e => rw [hd] at h; cases h
  · cases h

/-- Settles O4: after the word is accepted, the turn is the sequencer's. -/
theorem fetchedWordRunsNext : Obligations.FetchedWordRunsNext := by
  intro s nbits w i hw
  have hturn : SeqTurn (s.withFetchWord nbits w) s.agenda := ⟨rfl, .inr (.inl rfl)⟩
  exact stepRunsDecodedCommand _ _ i hturn (decode_of_decodeTableWord hw)

/-- Settles O21: an idle block takes the write, and a write of `CMD` is the accept step. -/
theorem acceptStepLatchesTheWord : Obligations.AcceptStepLatchesTheWord := by
  intro s w rest hb ha
  exact step_write_of_idle hb ha

/-- Settles O7: the complete step of any word finds the pending error and takes no effect. -/
theorem commandWhileErrorIsDiscarded : Obligations.CommandWhileErrorIsDiscarded := by
  intro s rest hturn he
  exact (step_seqTurn hturn).trans (seqStep_of_err (s := s.tookEvent rest) he)

/-! ### What no command writes

A command that is not discarded keeps what its effect keeps; a discarded one has no effect (R272, R273). -/

/-- Settles O6: both ends of a complete step, executed and discarded, clear `BUSY` and set `DONE`. -/
theorem everyCommandCompletes : Obligations.EveryCommandCompletes := by
  intro i s
  cases he : s.err
  · obtain ⟨hcw, hagenda, hcfg, hrdata, _⟩ := effect_keeps i s
    exact ⟨_, exec_of_noErr i he, rfl, rfl, hcw, hagenda, hcfg, hrdata⟩
  · exact ⟨_, exec_of_err i he, rfl, rfl, rfl, rfl, rfl, rfl⟩

/-- Settles O12: what every effect leaves alone, from the interrupt enables on. -/
theorem noCommandWritesOperandRegisters : Obligations.NoCommandWritesOperandRegisters := by
  intro i s
  cases he : s.err
  · obtain ⟨_, _, _, _, hoperands⟩ := effect_keeps i s
    exact ⟨_, exec_of_noErr i he, hoperands⟩
  · exact ⟨_, exec_of_err i he, rfl, rfl, rfl, rfl, rfl, rfl, rfl, rfl, rfl, rfl, fun _ _ => rfl⟩

/-! ### `NOP` and `SYS.ZERO` -/

/-- Settles O25: without an effect, a discarded and an executed command are the same. -/
theorem nopOnlyCompletes : Obligations.NopOnlyCompletes := by
  refine ⟨rfl, fun s => ?_⟩
  rcases Bool.eq_false_or_eq_true s.err with he | he
  · exact exec_of_err .nop he
  · exact exec_of_noErr .nop he

/-- Settles O26: the command has no check, and the zeroed scratchpad lists every address below `MEMSZ`. -/
theorem sysZeroErases : Obligations.SysZeroErases :=
  ⟨rfl, fun s he => ⟨_, exec_of_noErr .sysZero he, rfl, Memory.get?_zeroed s.memSize⟩⟩

/-- Every element of the state after `SYS.ZERO` is a constant or one that R277 leaves unchanged. -/
theorem SameOutsideSecrets.sysZeroEffect_eq {s t : State} (h : SameOutsideSecrets s t) :
    sysZeroEffect s = sysZeroEffect t := by
  unfold sysZeroEffect State.memSize
  rw [h.ieDone, h.ieErr, h.busy, h.done, h.err, h.errcode, h.einfo, h.cw, h.src, h.len, h.dst, h.keya, h.keyl, h.maddr,
    h.now, h.offs, h.cfg, h.agenda, h.rdata, h.draws]

/-- Settles O27: the effect is the same state at both, and neither command is discarded. -/
theorem sysZeroForgetsSecrets : Obligations.SysZeroForgetsSecrets := by
  intro s t h he
  have hs : exec .sysZero s = .next (sysZeroEffect s).finished := exec_of_noErr .sysZero he
  have ht : exec .sysZero t = .next (sysZeroEffect t).finished := exec_of_noErr .sysZero (h.err ▸ he)
  exact ⟨_, hs, by rw [ht, h.sysZeroEffect_eq]⟩

/-! ### No command reads the data of the last read

`State.rdata` is the model's own (notes/assumptions/4.md): the port writes it, and what a command does is independent of it. -/

/-- The state with other data of the last read. -/
def State.withRdata (s : State) (r : Option Word) : State := { s with rdata := r }

@[simp] theorem State.withRdata_src (s : State) (r : Option Word) : (s.withRdata r).src = s.src := rfl
@[simp] theorem State.withRdata_len (s : State) (r : Option Word) : (s.withRdata r).len = s.len := rfl
@[simp] theorem State.withRdata_dst (s : State) (r : Option Word) : (s.withRdata r).dst = s.dst := rfl
@[simp] theorem State.withRdata_keya (s : State) (r : Option Word) : (s.withRdata r).keya = s.keya := rfl
@[simp] theorem State.withRdata_keyl (s : State) (r : Option Word) : (s.withRdata r).keyl = s.keyl := rfl
@[simp] theorem State.withRdata_sha (s : State) (r : Option Word) : (s.withRdata r).sha = s.sha := rfl
@[simp] theorem State.withRdata_kblk (s : State) (r : Option Word) : (s.withRdata r).kblk = s.kblk := rfl
@[simp] theorem State.withRdata_memRead (s : State) (r : Option Word) : (s.withRdata r).memRead = s.memRead := rfl

@[simp] theorem State.withRdata_drawn (s : State) (r : Option Word) (n : Nat) :
    (s.withRdata r).drawn n = (s.drawn n).withRdata r := rfl

@[simp] theorem State.withRdata_memWrite (s : State) (r : Option Word) (a : Nat) (v : List Byte) :
    (s.withRdata r).memWrite a v = (s.memWrite a v).withRdata r := rfl

@[simp] theorem State.withRdata_deliver (s : State) (r : Option Word) (dg : List Byte) (work : Work) :
    (s.withRdata r).deliver dg work = (s.deliver dg work).withRdata r := rfl

/-- `f` neither depends on the data of the last read nor writes it. -/
def IgnoresRdata (f : State → State) : Prop := ∀ s r, f (s.withRdata r) = (f s).withRdata r

/-- A choice whose condition does not depend on the data of the last read. -/
theorem IgnoresRdata.ite {c : State → Prop} {dec : DecidablePred c} {f g : State → State}
    (hc : ∀ s r, c (s.withRdata r) = c s) (hf : IgnoresRdata f) (hg : IgnoresRdata g) :
    IgnoresRdata fun s => if c s then f s else g s := by
  intro s r
  by_cases h : c s
  · simp only [hc, h, if_true, hf s r]
  · simp only [hc, h, if_false, hg s r]

theorem IgnoresRdata.raise (e : ErrCode) : IgnoresRdata fun s => s.raise e s.cw := fun _ _ => rfl

/-- One of a command's checks, before the rest `g` of its effect (R299). -/
theorem IgnoresRdata.check {c : State → Prop} {dec : DecidablePred c} {e : ErrCode} {g : State → State}
    (hg : IgnoresRdata g) (hc : ∀ s r, c (s.withRdata r) = c s) :
    IgnoresRdata fun s => if c s then s.raise e s.cw else g s := .ite hc (.raise e) hg

theorem sha1FinalEffect_ignoresRdata : IgnoresRdata sha1FinalEffect := by
  refine .check (.check (fun s r => ?_) fun _ _ => rfl) fun _ _ => rfl
  simp only [State.withRdata_sha, State.withRdata_dst, State.withRdata_memWrite]
  generalize Sha1.digest _ = dg
  rfl

theorem sha1HashEffect_ignoresRdata : IgnoresRdata sha1HashEffect := by
  refine .check (.check (fun s r => ?_) fun _ _ => rfl) fun _ _ => rfl
  simp only [State.withRdata_src, State.withRdata_len, State.withRdata_sha, State.withRdata_memRead,
    State.withRdata_drawn, State.withRdata_deliver]

theorem hmacMacEffect_ignoresRdata : IgnoresRdata hmacMacEffect := by
  refine .check (.check (.check (fun s r => ?_) fun _ _ => rfl) fun _ _ => rfl) fun _ _ => rfl
  simp only [State.withRdata_keya, State.withRdata_keyl, State.withRdata_src, State.withRdata_len, State.withRdata_sha,
    State.withRdata_memRead, State.withRdata_drawn, State.withRdata_deliver]

theorem hmacFinalEffect_ignoresRdata : IgnoresRdata hmacFinalEffect := by
  refine .check (.check (fun s r => ?_) fun _ _ => rfl) fun _ _ => rfl
  simp only [State.withRdata_sha, State.withRdata_kblk, State.withRdata_dst, State.withRdata_memWrite]
  generalize Sha1Unit.outer _ _ _ = u
  generalize Sha1.digest _ = dg
  rfl

theorem b32DecEffect_ignoresRdata : IgnoresRdata b32DecEffect := by
  refine .check (.check (.check (fun s r => ?_) fun _ _ => rfl) fun _ _ => rfl) fun _ _ => rfl
  rw [State.withRdata_memRead, State.withRdata_src, State.withRdata_len]
  cases Base32.dec (s.memRead s.src.toNat s.len.toNat) <;> rfl

/-- One `check` for each check of the command; what comes after them does not read the element. -/
theorem effectOf_ignoresRdata (i : Instr) : IgnoresRdata (effectOf i) :=
  match i with
  | .nop | .sysZero | .sha1Init | .totpCtr | .totpMod => fun _ _ => rfl
  | .sha1Block | .hmacInit | .totpSer | .totpTrunc | .totpDig => .check (fun _ _ => rfl) fun _ _ => rfl
  | .sha1Update => .check (.check (fun _ _ => rfl) fun _ _ => rfl) fun _ _ => rfl
  | .b32Enc => .check (.check (.check (fun _ _ => rfl) fun _ _ => rfl) fun _ _ => rfl) fun _ _ => rfl
  | .totpCmp => .ite (fun _ _ => rfl) (fun _ _ => rfl) (.check (fun _ _ => rfl) fun _ _ => rfl)
  | .sha1Final => sha1FinalEffect_ignoresRdata
  | .sha1Hash => sha1HashEffect_ignoresRdata
  | .hmacMac => hmacMacEffect_ignoresRdata
  | .hmacFinal => hmacFinalEffect_ignoresRdata
  | .b32Dec => b32DecEffect_ignoresRdata

theorem wordEffect_ignoresRdata (w : Word) : IgnoresRdata (wordEffect w) := by
  unfold wordEffect
  split
  next i _ => exact effectOf_ignoresRdata i
  next => exact .raise .illcmd

/-- The discard test does not look at the data of the last read (R273). -/
theorem IgnoresRdata.complete {f : State → State} (hf : IgnoresRdata f) : IgnoresRdata (State.complete f) :=
  have hbody : IgnoresRdata fun s => if s.err then s else f s := .ite (fun _ _ => rfl) (fun _ _ => rfl) hf
  fun s r => congrArg State.finished (hbody s r)

/-- The sequencer's step from two states that differ in the data of the last read. -/
theorem seqStep_withRdata {s t : State} (h : seqStep s = .next t) (r : Option Word) :
    seqStep (s.withRdata r) = .next (t.withRdata r) := by
  rw [seqStep_eq] at h ⊢
  cases h
  exact congrArg Host.Outcome.next ((wordEffect_ignoresRdata s.cw).complete s r)

theorem rdata_of_seqStep {s t : State} (h : seqStep s = .next t) : t.rdata = s.rdata := by
  have hsame : t = t.withRdata s.rdata := Host.Outcome.next.inj (h.symm.trans (seqStep_withRdata h s.rdata))
  rw [hsame]
  rfl

/-! ### Polling -/

theorem run_succ {n : Nat} {s t : State} (h : step s = .next t) : run (n + 1) s = run n t := by rw [run, h]

/-- The state after a completed read of `STATUS`, with the agenda moved on. -/
def State.polled (s : State) (rest : List Event) : State := (s.tookEvent rest).withRdata (some s.statusWord)

theorem step_poll {s : State} {rest : List Event} (hb : s.busy = true) (ha : s.agenda = .read 3 :: rest) :
    step s = .next (s.polled rest) := by
  obtain ⟨_, hstatusRead, _⟩ := portInterlock
  exact hstatusRead s rest hb ha

/-- One poll more changes the data of the last read alone, and to the same word (R274). -/
theorem run_polls (n : Nat) {s t : State} {rest : List Event} (hb : s.busy = true)
    (ha : s.agenda = List.replicate n (.read 3) ++ .seq :: rest) (ht : seqStep (s.tookEvent rest) = .next t) :
    run (n + 1) s = some (t.withRdata (if n = 0 then s.rdata else some s.statusWord)) := by
  induction n generalizing s t with
  | zero =>
    have hstep : step s = .next t := (step_seqTurn ⟨hb, .inr (.inl ha)⟩).trans ht
    have hkept : t.rdata = s.rdata := rdata_of_seqStep (s := s.tookEvent rest) ht
    rw [run_succ hstep, if_pos rfl, ← hkept]
    rfl
  | succ n ih =>
    have hbusy : (s.polled (List.replicate n (.read 3) ++ .seq :: rest)).busy = true := hb
    have hpolled := seqStep_withRdata ht (some s.statusWord)
    rw [run_succ (step_poll hb ha), if_neg n.succ_ne_zero]
    refine (ih hbusy rfl hpolled).trans ?_
    exact congrArg (fun r => some (t.withRdata r)) (ite_self (some s.statusWord))

/-- Settles O24: the polls come first, and then the sequencer's step. -/
theorem pollingDoesNotChangeTheOutcome : Obligations.PollingDoesNotChangeTheOutcome := fun n _ _ hb ha =>
  ⟨_, seqStep_eq _, run_polls n hb ha (seqStep_eq _)⟩

end Sys2Proof.Machine
end

section
/-! The family of the exceptions (spec/60_exceptions.md): the illegal word (R293), how a command ends and which error it records
(R291, R292, R294, R295), the acknowledged error (R301) and the output `irq` (R302). -/

namespace Sys2Proof.Machine

/-! ### The interrupt output -/

theorem State.irq_iff (s : State) :
    s.irq = true ↔ (s.done = true ∧ s.ieDone = true) ∨ (s.err = true ∧ s.ieErr = true) := by
  simp [State.irq]

/-- Settles O23: the accept step clears `DONE`, which leaves the level to `ERR`. -/
theorem irqFollowsFlagsAndEnables : Obligations.IrqFollowsFlagsAndEnables := by
  refine ⟨State.irq_iff, fun s w rest hb ha => ⟨_, acceptStepLatchesTheWord s w rest hb ha, ?_⟩⟩
  simp [State.irq_iff]

/-! ### The illegal word -/

/-- The decoder rejects what the legality test refuses (R123, R124). -/
theorem decode_of_not_legalWord {w : Word} (h : ¬ legalWord w = true) : ∃ e, decode w = .error e := by
  cases hd : decode w with
  | error e => exact ⟨e, rfl⟩
  | ok i => exact absurd ((legalWord_iff_exists_encode w).mpr ⟨i, (decode_eq_ok_iff w i).mp hd⟩) h

/-- The complete step of an illegal word that is not discarded (R272, R293). -/
theorem seqStep_of_illegal {s : State} {e : Reject} (he : s.err = false) (hd : decode s.cw = .error e) :
    seqStep s = .next (failedWith s .illcmd) := by
  rw [seqStep_eq, wordEffect_of_illegal hd, State.complete_of_noErr _ he]
  rfl

/-- Settles O5: a word with one of the two faults fails the legality test, so the decoder rejects it. -/
theorem illegalWordFails : Obligations.IllegalWordFails := by
  intro s rest hturn he hfault
  have hillegal : ¬ legalWord s.cw = true := by
    intro hlegal
    obtain ⟨hzero, hopc⟩ := (legalWord_iff s.cw).mp hlegal
    exact hfault.elim (fun h => h hzero) (fun h => h hopc)
  obtain ⟨e, hd⟩ := decode_of_not_legalWord hillegal
  exact (step_seqTurn hturn).trans (seqStep_of_illegal (s := s.tookEvent rest) he hd)

/-! ### How a command ends -/

/-- The cause of `E_BOUNDS` (R295): an operand of R92 that is not in bounds. -/
def OutOfBounds (s : State) (i : Instr) : Prop := ∃ o ∈ checkedOperands s i, s.memSize < o.1.toNat + o.2

theorem not_outOfBounds {s : State} {i : Instr} (h : ∀ o ∈ checkedOperands s i, o.1.toNat + o.2 ≤ s.memSize) :
    ¬ OutOfBounds s i :=
  fun ⟨o, ho, hlt⟩ => Nat.not_lt.mpr (h o ho) hlt

/-- The ways in which command `i`, run without a pending error, can end in `t`: without an error, or with one of the errors
of its row of R291, each with its cause and in the order of R299. -/
inductive Ends (i : Instr) (s : State) : State → Prop where
  | clean {t : State} : t.err = false → ¬ OutOfSequence s i → ¬ OutOfBounds s i → Ends i s t
  | outOfSequence : OutOfSequence s i → .seq ∈ raisable i → Ends i s (failedWith s .seq)
  | outOfBounds : ¬ OutOfSequence s i → OutOfBounds s i → .bounds ∈ raisable i → Ends i s (failedWith s .bounds)
  | overlapping : ¬ OutOfSequence s i → ¬ OutOfBounds s i → .overlap ∈ raisable i → Ends i s (failedWith s .overlap)
  | badCharacter (info : Word) (n : Nat) : ¬ OutOfSequence s i → ¬ OutOfBounds s i → .b32char ∈ raisable i →
      Ends i s { failedWith s .b32char with einfo := info, draws := s.draws + n }

/-- Every command that is not discarded ends in one of these ways. -/
theorem exec_ends (i : Instr) {s : State} (he : s.err = false) : ∃ t, exec i s = .next t ∧ Ends i s t := by
  refine ⟨_, exec_of_noErr i he, ?_⟩
  obtain ⟨herr, _, _, hseq, hin⟩ | ⟨hseq, h, hrow⟩ | ⟨hseq, hout, h, hrow⟩ |
    ⟨hseq, hin, ⟨h, hrow⟩ | ⟨info, n, h, rfl⟩⟩ := effect_err i s
  · exact .clean (herr.trans he) hseq (not_outOfBounds hin)
  · rw [h]; exact .outOfSequence hseq hrow
  · rw [h]; exact .outOfBounds hseq hout hrow
  · rw [h]; exact .overlapping hseq (not_outOfBounds hin) hrow
  · rw [h]; exact .badCharacter info n hseq (not_outOfBounds hin) (by decide)

theorem ends_of_exec {i : Instr} {s t : State} (he : s.err = false) (h : exec i s = .next t) : Ends i s t := by
  obtain ⟨u, hu, hends⟩ := exec_ends i he
  cases h.symm.trans hu
  exact hends

theorem Ends.errcode_mem_raisable {i : Instr} {s t : State} (h : Ends i s t) (ht : t.err = true) :
    t.errcode ∈ raisable i := by
  cases h with
  | clean hno => exact nomatch hno.symm.trans ht
  | outOfSequence _ hrow => exact hrow
  | outOfBounds _ _ hrow => exact hrow
  | overlapping _ _ hrow => exact hrow
  | badCharacter _ _ _ _ hrow => exact hrow

/-- A command whose row of R291 is empty leaves no error: the error would be in the row. -/
theorem Ends.noErr_of_raisable_nil {i : Instr} {s t : State} (h : Ends i s t) (hrow : raisable i = []) :
    t.err = false := by
  by_contra ht
  have hmem : t.errcode ∈ raisable i := h.errcode_mem_raisable (by simpa using ht)
  simp [hrow] at hmem

/-- Settles O9: the recorded error is in the row. -/
theorem commandsRaiseOnlyTheirErrors : Obligations.CommandsRaiseOnlyTheirErrors := fun _ _ _ he h =>
  ⟨(ends_of_exec he h).errcode_mem_raisable, (ends_of_exec he h).noErr_of_raisable_nil⟩

/-- `E_SEQ` comes before every other check, so its cause alone decides it (R294, R299). -/
theorem Ends.seq_iff {i : Instr} {s t : State} (h : Ends i s t) :
    (t.err = true ∧ t.errcode = .seq) ↔ OutOfSequence s i := by
  cases h with
  | clean hno hseq => simp [hno, hseq]
  | outOfSequence hseq => exact iff_of_true ⟨rfl, rfl⟩ hseq
  | outOfBounds hseq | overlapping hseq | badCharacter _ _ hseq => exact iff_of_false (fun h => nomatch h.2) hseq

theorem Ends.eq_failedWith_seq {i : Instr} {s t : State} (h : Ends i s t) (hseq : OutOfSequence s i) :
    t = failedWith s .seq := by
  cases h with
  | outOfSequence => rfl
  | clean _ hno | outOfBounds hno | overlapping hno | badCharacter _ _ hno => exact absurd hseq hno

/-- Settles O10: of the ways to end, the one with `E_SEQ` has the cause of R294 and the others exclude it. -/
theorem sequenceErrorExactly : Obligations.SequenceErrorExactly := by
  intro i s he
  obtain ⟨t, hexec, hends⟩ := exec_ends i he
  exact ⟨t, hexec, hends.seq_iff, hends.eq_failedWith_seq⟩

/-- Without a sequence error, `E_BOUNDS` comes before every other check (R295, R299). -/
theorem Ends.bounds_iff {i : Instr} {s t : State} (h : Ends i s t) (hseq : ¬ OutOfSequence s i) :
    (t.err = true ∧ t.errcode = .bounds) ↔ OutOfBounds s i := by
  cases h with
  | clean hno _ hin => simp [hno, hin]
  | outOfSequence hyes => exact absurd hyes hseq
  | outOfBounds _ hout => exact iff_of_true ⟨rfl, rfl⟩ hout
  | overlapping _ hin | badCharacter _ _ _ hin => exact iff_of_false (fun h => nomatch h.2) hin

theorem Ends.eq_failedWith_bounds {i : Instr} {s t : State} (h : Ends i s t) (hseq : ¬ OutOfSequence s i)
    (hout : OutOfBounds s i) : t = failedWith s .bounds := by
  cases h with
  | outOfBounds => rfl
  | outOfSequence hyes => exact absurd hyes hseq
  | clean _ _ hin | overlapping _ hin | badCharacter _ _ _ hin => exact absurd hout hin

/-- Settles O11: of the ways to end in sequence, the one with `E_BOUNDS` has the cause of R295 and the others exclude it. -/
theorem boundsErrorExactly : Obligations.BoundsErrorExactly := by
  intro i s he hseq
  obtain ⟨t, hexec, hends⟩ := exec_ends i he
  exact ⟨t, hexec, hends.bounds_iff hseq, hends.eq_failedWith_bounds hseq⟩

/-! ### The failing step is precise -/

/-- `t` is `s` after a complete step that failed (R292): the error record, `BUSY` and `DONE` are written, and `draws` is the
model's own. -/
structure FailedPrecisely (s t : State) : Prop where
  frame : t = { s with
    err := true, errcode := t.errcode, einfo := t.einfo, busy := false, done := true, draws := t.draws }
  coded : t.errcode ≠ .noError
  detail : t.errcode ≠ .b32char → t.einfo = s.cw

theorem failedPrecisely_failedWith (s : State) {e : ErrCode} (he : e ≠ .noError) : FailedPrecisely s (failedWith s e) :=
  ⟨rfl, he, fun _ => rfl⟩

theorem Ends.failedPrecisely {i : Instr} {s t : State} (h : Ends i s t) (ht : t.err = true) : FailedPrecisely s t := by
  cases h with
  | clean hno => exact nomatch hno.symm.trans ht
  | outOfSequence | outOfBounds | overlapping => exact failedPrecisely_failedWith s (by decide)
  | badCharacter => exact ⟨rfl, nofun, fun h => absurd rfl h⟩

/-- The sequencer's step of any word, legal or illegal. -/
theorem failedPrecisely_of_seqStep {s t : State} (he : s.err = false) (h : seqStep s = .next t) (ht : t.err = true) :
    FailedPrecisely s t := by
  cases hd : decode s.cw with
  | ok i => exact (ends_of_exec he ((seqStep_of_decode hd).symm.trans h)).failedPrecisely ht
  | error e =>
    cases h.symm.trans (seqStep_of_illegal he hd)
    exact failedPrecisely_failedWith s (by decide)

/-- Settles O8: the step is the sequencer's, on the state with the events to come moved on. -/
theorem failingCommandIsPrecise : Obligations.FailingCommandIsPrecise := by
  intro s t rest hturn he hstep ht
  obtain ⟨hframe, hcoded, hdetail⟩ :=
    failedPrecisely_of_seqStep (s := s.tookEvent rest) he ((step_seqTurn hturn).symm.trans hstep) ht
  exact ⟨hframe, hcoded, hdetail⟩

/-! ### The acknowledged error -/

/-- Acknowledging (R301): a write of `STATUS` with bit 2 set clears the record, and bit 1 clears `DONE`. -/
theorem State.writeReg_status_of_ack (s : State) {w : Word} (hack : w.getLsbD 2 = true) :
    s.writeReg .status w = { s with
      done := if w.getLsbD 1 then false else s.done, err := false, errcode := .noError, einfo := 0 } := by
  rw [State.writeReg_status]
  simp only [hack, if_true]

/-- Settles O22: two writes that an idle block takes, and then the sequencer's turn. -/
theorem acknowledgedErrorIsGone : Obligations.AcknowledgedErrorIsGone := by
  intro s w cmd rest hb hack ha
  have hwrite := (step_write_of_idle hb ha).trans (congrArg _ (State.writeReg_status_of_ack _ hack))
  refine ⟨_, _, hwrite, rfl, rfl, rfl, fun hdone => if_pos hdone, acceptStepLatchesTheWord _ cmd _ hb rfl, fun i hd => ?_⟩
  exact stepRunsDecodedCommand _ rest i ⟨rfl, .inr (.inl rfl)⟩ hd

end Sys2Proof.Machine
end

section
/-! The family of reset (spec/70_reset_and_hazards.md): the state that a reset event gives (R330 to R332). -/

namespace Sys2Proof.Machine

/-! ### The reset event -/

/-- A reset is never held, a command in flight or not: it takes the step (R330). -/
theorem step_reset {s : State} {rest : List Event} (ha : s.agenda = .reset :: rest) :
    step s = .next (s.tookEvent rest).resetBlock := by
  unfold step advance
  rw [ha]

@[simp] theorem State.resetBlock_busy (s : State) : s.resetBlock.busy = false := rfl
@[simp] theorem State.resetBlock_done (s : State) : s.resetBlock.done = false := rfl
@[simp] theorem State.resetBlock_err (s : State) : s.resetBlock.err = false := rfl

theorem State.resetBlock_unwritten (s : State) (a : Nat) : s.resetBlock.mem.get? a = none := rfl

theorem State.resetBlock_paramWord (s : State) :
    s.resetBlock.readData .param = BitVec.ofNat 32 (0x40001E06 + s.cfg.aw * 2 ^ 16) := Config.paramWord_eq s.cfg

/-- Both causes of the interrupt are flags that the reset clears. -/
theorem State.resetBlock_irq (s : State) : s.resetBlock.irq = false := by simp [State.irq]

theorem State.writeReady_of_idle {s : State} (hb : s.busy = false) : s.writeReady = true := by
  simp [State.writeReady, hb]

/-- Settles O16: the reset takes the step, the state it gives is written out field by field, and the port of an idle block is
ready. -/
theorem resetEventGivesResetState : Obligations.ResetEventGivesResetState := by
  intro s rest ha
  have hidle := State.resetBlock_busy (s.tookEvent rest)
  exact ⟨_, step_reset ha, rfl, State.resetBlock_unwritten _, rfl, State.resetBlock_paramWord _, State.resetBlock_irq _,
    fun a => State.readReady_of_idle a hidle, State.writeReady_of_idle hidle⟩

end Sys2Proof.Machine
end
